-- ==== Sys2Proof/Word.lean ====
section
/-! DEFINITION. The word types of the ports (R24, R26). -/
namespace Sys2Proof

/-- The 64-bit value bus, `a_word` and `r_word` (R24, R26). -/
abbrev Word := BitVec 64

/-- A 7-bit length tag, `a_len` and `r_len` (R24, R25, R26). -/
abbrev Len := BitVec 7

end Sys2Proof
end

