-- ==== Sys2Proof/Config.lean ====
section
/-! DEFINITION. What describes one hardware and never changes: the record type of a FormatSpec (R90) and the parameters
the spec leaves OPEN (R6). The six FormatSpecs themselves stand in Machine/Format.lean. -/
namespace Sys2Proof

/-- A FormatSpec `F = (T, E, M, B)` with its `sign_bits` (R90): a record of five integers. The four counts are naturals,
since the contract of R90 refuses every negative one; the bias is any integer. -/
structure FormatSpec where
  /-- `total_bits` -/
  T : Nat
  /-- `sign_bits` -/
  signBits : Nat
  /-- `exponent_bits` -/
  E : Nat
  /-- `mantissa_bits` -/
  M : Nat
  /-- `bias` -/
  B : Int
  deriving DecidableEq, Repr

/-- How a host lays a word out in its own memory (D25); invisible to the block (R41). DESIGN CHOICE (log 11): the spec names
`HOST_BYTE_ORDER` open and gives no set of values for it; that it is one of these two orders, and not some other arrangement of a
word's bytes, is the model's choice. Nothing reads it. -/
inductive ByteOrder where
  | mostSignificantFirst
  | leastSignificantFirst
  deriving DecidableEq, Repr, Inhabited

/-- `LATENCY` (R6, D2), OPEN: the time from request to response. No rule depends on it and nothing here reads it (R218). DESIGN
CHOICE (log 11): the spec gives no unit and no set of values for it; that it is one natural number, the same for every transaction,
is the model's choice. -/
opaque Config.latency : Nat

/-- `HOST_BYTE_ORDER` (R6, D25), OPEN: outside the block. No rule depends on it and nothing here reads it (R41). -/
opaque Config.hostByteOrder : ByteOrder

/-- `EXTRA_FORMATS` (R6, D26): "empty in this hardware". -/
def Config.extraFormats : List FormatSpec := []

end Sys2Proof
end

