-- ==== Sys2Proof/Syntax.lean ====
section
/-! DEFINITION. The eighteen commands (R67), one constructor per row of spec/opcode_table.json, and the host's lines of the
transaction notation (R70). A command has no operand field (R60): its operand is on the ports `a_word`, `a_len` (R63). -/
namespace Sys2Proof

/-- The three operations (R61, R199). -/
inductive Operation where
  | encode
  | decode
  | breakdown
  deriving DecidableEq, Repr

/-- The six formats of the catalog (R62, R92). -/
inductive Format where
  | fp32
  | fp64
  | fp16
  | bf16
  | fp8e4m3
  | nvfp4e2m1
  deriving DecidableEq, Repr

/-- The commands, `<OP>.<fmt>` (R67, R70). -/
inductive Instr where
  | encodeFp32
  | encodeFp64
  | encodeFp16
  | encodeBf16
  | encodeFp8e4m3
  | encodeNvfp4e2m1
  | decodeFp32
  | decodeFp64
  | decodeFp16
  | decodeBf16
  | decodeFp8e4m3
  | decodeNvfp4e2m1
  | breakdownFp32
  | breakdownFp64
  | breakdownFp16
  | breakdownBf16
  | breakdownFp8e4m3
  | breakdownNvfp4e2m1
  deriving DecidableEq, Repr

/-- The operation a command selects. -/
def Instr.operation : Instr → Operation
  | .encodeFp32 => .encode
  | .encodeFp64 => .encode
  | .encodeFp16 => .encode
  | .encodeBf16 => .encode
  | .encodeFp8e4m3 => .encode
  | .encodeNvfp4e2m1 => .encode
  | .decodeFp32 => .decode
  | .decodeFp64 => .decode
  | .decodeFp16 => .decode
  | .decodeBf16 => .decode
  | .decodeFp8e4m3 => .decode
  | .decodeNvfp4e2m1 => .decode
  | .breakdownFp32 => .breakdown
  | .breakdownFp64 => .breakdown
  | .breakdownFp16 => .breakdown
  | .breakdownBf16 => .breakdown
  | .breakdownFp8e4m3 => .breakdown
  | .breakdownNvfp4e2m1 => .breakdown

/-- The format a command selects. -/
def Instr.format : Instr → Format
  | .encodeFp32 => .fp32
  | .encodeFp64 => .fp64
  | .encodeFp16 => .fp16
  | .encodeBf16 => .bf16
  | .encodeFp8e4m3 => .fp8e4m3
  | .encodeNvfp4e2m1 => .nvfp4e2m1
  | .decodeFp32 => .fp32
  | .decodeFp64 => .fp64
  | .decodeFp16 => .fp16
  | .decodeBf16 => .bf16
  | .decodeFp8e4m3 => .fp8e4m3
  | .decodeNvfp4e2m1 => .nvfp4e2m1
  | .breakdownFp32 => .fp32
  | .breakdownFp64 => .fp64
  | .breakdownFp16 => .fp16
  | .breakdownBf16 => .bf16
  | .breakdownFp8e4m3 => .fp8e4m3
  | .breakdownNvfp4e2m1 => .nvfp4e2m1

/-- The operand of a line of the transaction notation (R70). -/
inductive LineOperand where
  /-- `0x…`: the word, written with this many hexadecimal digits, with the implied length tag. -/
  | literal (digits : Nat) (w : Word)
  /-- `<len>'<hex>`: the word with an explicit length tag. -/
  | tagged (len : Len) (w : Word)
  /-- A name bound by an earlier line, given as that line's number counted from 0: its `r_word` and `r_len`. -/
  | result (line : Nat)
  deriving DecidableEq, Repr

/-- One line of a program, one transaction (R70, R215). The command is held as the two port codes, since a host can also
present the reserved ones (95_test_vectors.md, program P3). -/
structure Line where
  op : BitVec 2
  fmt : BitVec 3
  operand : LineOperand
  deriving DecidableEq, Repr

end Sys2Proof
end

