-- ==== Sys2Proof/WellFormed.lean ====
section
/-! DEFINITION. The checks on terms: of a command and of a FormatSpec (R90). A command has no operand field (R60), so every Instr is
well formed. The checks of a program's lines (R70) need the formats' widths and stand in Machine/Program.lean. -/
namespace Sys2Proof

/-- Every command is well formed: it has no operand field that could hold a value outside its range (R60, R69). -/
def Instr.wellFormed : Instr → Bool
  | .encodeFp32 | .encodeFp64 | .encodeFp16 | .encodeBf16 | .encodeFp8e4m3 | .encodeNvfp4e2m1 => true
  | .decodeFp32 | .decodeFp64 | .decodeFp16 | .decodeBf16 | .decodeFp8e4m3 | .decodeNvfp4e2m1 => true
  | .breakdownFp32 | .breakdownFp64 | .breakdownFp16 | .breakdownBf16 | .breakdownFp8e4m3 | .breakdownNvfp4e2m1 => true

/-- The FormatSpec contract (R90): valid "exactly when all four of these hold". The bias is not constrained. -/
def FormatSpec.valid (F : FormatSpec) : Bool :=
  decide (1 ≤ F.M) && decide (1 ≤ F.E) && decide (F.signBits = 1) && decide (F.T = F.signBits + F.E + F.M)

end Sys2Proof
end

