-- ==== Sys2Proof/Decode.lean ====
section
/-! DEFINITION. The command word `CMD = op ‖ fmt` (R60): its decoder, total on all 32 values (R67) and refusing the reserved
ones by name (R68), and its encoder. -/
namespace Sys2Proof

/-- Why a command word is no command (R68). -/
inductive DecodeError where
  /-- `op = 3`. -/
  | reservedOperation
  /-- `op` in 0 to 2, `fmt` 6 or 7. -/
  | reservedFormat
  deriving DecidableEq, Repr

/-- What the decoder answers. -/
inductive Decoded where
  | command (i : Instr)
  | rejected (e : DecodeError)
  deriving DecidableEq, Repr

/-- `CMD[4:3]` (R60). -/
def opField (c : BitVec 5) : BitVec 2 := c.extractLsb' 3 2

/-- `CMD[2:0]` (R60). -/
def fmtField (c : BitVec 5) : BitVec 3 := c.extractLsb' 0 3

/-- The operation codes (R61). -/
def operationOf (op : BitVec 2) : Option Operation :=
  match op.toNat with
  | 0 => some .encode
  | 1 => some .decode
  | 2 => some .breakdown
  | _ => none

/-- The format codes (R62). -/
def formatOf (fmt : BitVec 3) : Option Format :=
  match fmt.toNat with
  | 0 => some .fp32
  | 1 => some .fp64
  | 2 => some .fp16
  | 3 => some .bf16
  | 4 => some .fp8e4m3
  | 5 => some .nvfp4e2m1
  | _ => none

/-- The command of an operation and a format (R67). -/
def Instr.ofParts : Operation → Format → Instr
  | .encode, .fp32 => .encodeFp32
  | .encode, .fp64 => .encodeFp64
  | .encode, .fp16 => .encodeFp16
  | .encode, .bf16 => .encodeBf16
  | .encode, .fp8e4m3 => .encodeFp8e4m3
  | .encode, .nvfp4e2m1 => .encodeNvfp4e2m1
  | .decode, .fp32 => .decodeFp32
  | .decode, .fp64 => .decodeFp64
  | .decode, .fp16 => .decodeFp16
  | .decode, .bf16 => .decodeBf16
  | .decode, .fp8e4m3 => .decodeFp8e4m3
  | .decode, .nvfp4e2m1 => .decodeNvfp4e2m1
  | .breakdown, .fp32 => .breakdownFp32
  | .breakdown, .fp64 => .breakdownFp64
  | .breakdown, .fp16 => .breakdownFp16
  | .breakdown, .bf16 => .breakdownBf16
  | .breakdown, .fp8e4m3 => .breakdownFp8e4m3
  | .breakdown, .nvfp4e2m1 => .breakdownNvfp4e2m1

/-- The decoder of a command word. The operation is judged before the format (R66, R191). -/
def decode (c : BitVec 5) : Decoded :=
  match operationOf (opField c) with
  | none => .rejected .reservedOperation
  | some o =>
    match formatOf (fmtField c) with
    | none => .rejected .reservedFormat
    | some f => .command (Instr.ofParts o f)

/-- The code of an operation (R61). -/
def Operation.code : Operation → BitVec 2
  | .encode => 0
  | .decode => 1
  | .breakdown => 2

/-- The code of a format (R62). -/
def Format.code : Format → BitVec 3
  | .fp32 => 0
  | .fp64 => 1
  | .fp16 => 2
  | .bf16 => 3
  | .fp8e4m3 => 4
  | .nvfp4e2m1 => 5

/-- The encoder: `CMD = op ‖ fmt` (R60). -/
def encode (i : Instr) : BitVec 5 := i.operation.code ++ i.format.code

/-- The command word in a number laid out as spec/opcode_table.json numbers it: bits 4 to 0 of it, the table's mask being
0x1F (R67); bits at or above `nbits` count as 0. DEDUCED (log 6): bits 5 and up reach no port of the block. -/
def commandOfTableWord (nbits w : Nat) : BitVec 5 := BitVec.ofNat 5 (w % 2 ^ nbits)

/-- What the decoder reads from a word numbered as the opcode table numbers it. -/
def decodeTableWord (nbits w : Nat) : Option Instr :=
  match decode (commandOfTableWord nbits w) with
  | .command i => some i
  | .rejected _ => none

end Sys2Proof
end

