-- ==== Sys2Proof/Machine/State.lean ====
section
/-! DEFINITION. The state: the ports of one transaction (R24, R26) and the host's list of transactions (R215). The block itself
stores nothing (R20 to R23, R28); what is held here is what one step reads and drives. -/
namespace Sys2Proof.Machine

/-- Why a machine could stop with a fault: no reason exists. "a model has no stuck state and no hang for this block" (R214); the
three errors of R186 are responses, not stops (R192, R194). Raised by nobody; safe. -/
inductive Fault where
  deriving DecidableEq, Repr

/-- Why a command has no meaning in the model. -/
inductive Refusal where
  /-- Raised by `exec` for a command the model gives no meaning yet; safe. No arm of `exec` raises it. -/
  | notModelled (mnemonic : String)
  deriving DecidableEq, Repr

/-- The request: the input ports (R24). -/
structure Request where
  /-- `op`, the operation code -/
  op : BitVec 2
  /-- `fmt`, the format code -/
  fmt : BitVec 3
  /-- `a_word`, the operand -/
  aWord : Word
  /-- `a_len`, the operand's length tag -/
  aLen : Len
  deriving DecidableEq, Repr

/-- The response: the output ports (R26). -/
structure Response where
  /-- `status` -/
  status : BitVec 2
  /-- `r_word` -/
  rWord : Word
  /-- `r_len` -/
  rLen : Len
  /-- `f_sign` -/
  fSign : BitVec 1
  /-- `f_exp` -/
  fExp : BitVec 11
  /-- `f_explen` -/
  fExplen : BitVec 4
  /-- `f_man` -/
  fMan : BitVec 52
  /-- `f_manlen` -/
  fManlen : BitVec 6
  deriving DecidableEq, Repr

/-- The machine's state. -/
structure State where
  /-- The input ports: the request being presented (R24). -/
  request : Request
  /-- The output ports: the last transaction's response, or `none` when no transaction has answered yet and the outputs "have no
  meaning" (R30, log 3). -/
  response : Option Response
  /-- The HOST's: the requests it will present after this one, in order (R215, log 4). The block never reads it. -/
  pending : List Request
  /-- The HOST's: the responses it has taken, oldest first (R215, log 4). The block never reads it. -/
  delivered : List Response
  deriving DecidableEq, Repr

/-- After reset. The spec gives no port a value at reset (R30, R210): the four input ports are 0 by DESIGN CHOICE (log 2), no
response has been given (log 3) and the host has nothing lined up (log 4). -/
def State.reset : State where
  request := { op := 0, fmt := 0, aWord := 0, aLen := 0 }
  response := none
  pending := []
  delivered := []

end Sys2Proof.Machine
end

