-- ==== Sys2Proof/Machine/Format.lean ====
section
/-! DEFINITION. The catalog: six hardwired FormatSpecs (R23, R92) and their selection by the format code (R62). -/
namespace Sys2Proof.Machine

def fp32 : FormatSpec := { T := 32, signBits := 1, E := 8, M := 23, B := 127 }

def fp64 : FormatSpec := { T := 64, signBits := 1, E := 11, M := 52, B := 1023 }

def fp16 : FormatSpec := { T := 16, signBits := 1, E := 5, M := 10, B := 15 }

def bf16 : FormatSpec := { T := 16, signBits := 1, E := 8, M := 7, B := 127 }

def fp8e4m3 : FormatSpec := { T := 8, signBits := 1, E := 4, M := 3, B := 7 }

def nvfp4e2m1 : FormatSpec := { T := 4, signBits := 1, E := 2, M := 1, B := 1 }

/-- The catalog in the order of R92, with the formats of `EXTRA_FORMATS` (none) behind it (D26). -/
def catalog : List FormatSpec := [fp32, fp64, fp16, bf16, fp8e4m3, nvfp4e2m1] ++ Config.extraFormats

/-- `FMT(fmt)` (R62): the FormatSpec a format code selects, if any (R68). -/
def fmtSpec (fmt : BitVec 3) : Option FormatSpec := catalog[fmt.toNat]?

/-- The FormatSpec of a format name (R92). -/
def specOf : Format → FormatSpec
  | .fp32 => fp32
  | .fp64 => fp64
  | .fp16 => fp16
  | .bf16 => bf16
  | .fp8e4m3 => fp8e4m3
  | .nvfp4e2m1 => nvfp4e2m1

end Sys2Proof.Machine
end

