-- ==== Sys2Proof/Machine/Operands.lean ====
section
/-! DEFINITION. Operand forms (R63), the well-formedness of a BitString on the ports (R25), and the field layout of a format
word (R64, R65). A word of a format is a natural number below `2^T` (R8, R9). -/
namespace Sys2Proof.Machine

/-- `ones(n) = 2^n - 1` (R8). -/
def ones (n : Nat) : Nat := 2 ^ n - 1

/-- The three fields of a format word (R64). `sign` is true for sign bit 1. -/
structure Fields where
  sign : Bool
  expf : Nat
  manf : Nat
  deriving DecidableEq, Repr

/-- Splitting a word into its fields: `w[T-1]`, `w[T-2:M]`, `w[M-1:0]` (R64). -/
def split (F : FormatSpec) (w : Nat) : Fields where
  sign := w.testBit (F.T - 1)
  expf := w / 2 ^ F.M % 2 ^ F.E
  manf := w % 2 ^ F.M

/-- `pack(F, s, e, m)` (R65). -/
def pack (F : FormatSpec) (s : Bool) (e m : Nat) : Nat := s.toNat * 2 ^ (F.E + F.M) + e * 2 ^ F.M + m

/-- A BitString on the ports is well formed for the format: `len = F.T` and `word < 2^(F.T)` (R25, R150, R172). -/
def wellFormedFor (F : FormatSpec) (aWord : Word) (aLen : Len) : Bool :=
  decide (aLen.toNat = F.T) && decide (aWord.toNat < 2 ^ F.T)

end Sys2Proof.Machine
end

