-- ==== Sys2Proof/Machine/Value.lean ====
section
/-! DEFINITION. Extended reals (R10) and the two functions of the hardware: `val`, the value of a word (R96), and `enc`, the word of
a value (R120). Every magnitude is a natural number times a power of two (R97 (a)), so the arithmetic is exact on naturals and
integers (R7, R132). Machine/Exact.lean has the same two functions in the spec's own formulas over the rationals. -/
namespace Sys2Proof.Machine

/-- `XReal` (R10) over a type of magnitudes: NaN (no sign, no payload), `Inf(s)`, `Zero(s)`, `Fin(s, a)`; `s` is true for sign 1. -/
inductive XReal (α : Type) where
  | nan
  | inf (s : Bool)
  | zero (s : Bool)
  | fin (s : Bool) (a : α)
  deriving DecidableEq, Repr

/-- The same extended real over another type of magnitudes. -/
def XReal.map {α β : Type} (f : α → β) : XReal α → XReal β
  | .nan => .nan
  | .inf s => .inf s
  | .zero s => .zero s
  | .fin s a => .fin s (f a)

/-- The magnitude `k * 2^j` (R97 (a)). A magnitude of R10 has `k > 0`; the same real has many spellings (log 7). -/
structure Magnitude where
  k : Nat
  j : Int
  deriving DecidableEq, Repr

/-- `a * 2^i`. -/
def Magnitude.scale (a : Magnitude) (i : Int) : Magnitude := { a with j := a.j + i }

/-- `flog2(a)` (R11): for `a = k * 2^j` with `k > 0` it is `floor(log2 k) + j`. -/
def flog2 (a : Magnitude) : Int := (Nat.log2 a.k : Int) + a.j

/-- `a / 2^e - 1` for `e = flog2(a)` (R125): `k / 2^n - 1 = (k - 2^n) * 2^(-n)` with `n = floor(log2 k)`. -/
def fraction (a : Magnitude) : Magnitude where
  k := a.k - 2 ^ Nat.log2 a.k
  j := -(Nat.log2 a.k : Int)

/-- `rhaz(y) = floor(y + 1/2)` (R11, R126). For `y = k / 2^(n+1)` it is `floor((floor(k / 2^n) + 1) / 2)`. -/
def rhaz (y : Magnitude) : Nat :=
  match y.j with
  | .ofNat n => y.k <<< n
  | .negSucc n => (y.k >>> n + 1) / 2

/-- `val(F, w)` (R96), each magnitude as R97 (a) writes it. -/
def val (F : FormatSpec) (w : Nat) : XReal Magnitude :=
  let f := split F w
  if f.expf = ones F.E then
    if f.manf = 0 then .inf f.sign else .nan
  else if f.expf = 0 then
    if f.manf = 0 then .zero f.sign else .fin f.sign { k := f.manf, j := 1 - F.B - F.M }
  else
    .fin f.sign { k := 2 ^ F.M + f.manf, j := f.expf - F.B - F.M }

/-- The last three steps of `enc` (R120): the carry out of the mantissa (R127, R128 (c)), the saturation after it (R127), and the
word. -/
def finish (F : FormatSpec) (s : Bool) (ef q : Nat) : Nat :=
  let carry := decide (q = 2 ^ F.M)
  let ef' := if carry then ef + 1 else ef
  let q' := if carry then 0 else q
  if ones F.E ≤ ef' then pack F s (ones F.E) 0 else pack F s ef' q'

/-- `enc` of a finite non-zero value (R124): the subnormal branch (R128), the overflow branch (R129), the normal branch (R125). -/
def encFinite (F : FormatSpec) (s : Bool) (a : Magnitude) : Nat :=
  let be := flog2 a + F.B
  if be ≤ 0 then
    finish F s 0 (rhaz (a.scale (F.B - 1 + F.M)))
  else if (ones F.E : Int) ≤ be then
    pack F s (ones F.E) 0
  else
    finish F s be.toNat (rhaz ((fraction a).scale F.M))

/-- `enc(F, x)` (R120): NaN (R121), infinity (R122), zero (R123), finite non-zero (R124). -/
def enc (F : FormatSpec) : XReal Magnitude → Nat
  | .nan => pack F false (ones F.E) (2 ^ (F.M - 1))
  | .inf s => pack F s (ones F.E) 0
  | .zero s => pack F s 0 0
  | .fin s a => encFinite F s a

end Sys2Proof.Machine
end

