-- ==== Sys2Proof/Machine/Flags.lean ====
section
/-! DEFINITION. The outcome of a transaction. There are no flags (R22): "The only outcome indication is the 2-bit `status` output". -/
namespace Sys2Proof.Machine

/-- The three errors (R185, R186). -/
inductive Error where
  /-- `fmt` is 6 or 7 (R187). -/
  | configurationError
  /-- The BitString is not well formed for the format (R188). -/
  | malformedInputError
  /-- `op = 3` (R189). -/
  | illegalOperation
  deriving DecidableEq, Repr

/-- Status 0, OK (R186). -/
def statusOk : BitVec 2 := 0

/-- The status codes of the errors (R186). -/
def Error.status : Error → BitVec 2
  | .configurationError => 1
  | .malformedInputError => 2
  | .illegalOperation => 3

/-- The error the dispatch raises for a command word that is no command (R68). -/
def errorOfReject : DecodeError → Error
  | .reservedOperation => .illegalOperation
  | .reservedFormat => .configurationError

end Sys2Proof.Machine
end

