-- ==== Sys2Proof/Machine/Ops.lean ====
section
/-! DEFINITION. The shared operations: laying an answer on the output ports (R26, R193), answering, raising an error (R192), the
three operations over any FormatSpec (R130, R155, R170), and the host's turn between two transactions (R215). -/
namespace Sys2Proof.Machine

/-- What a transaction answers, as a sum type ("A model is best served by a sum type, an error code or a result", R193). -/
inductive Answer where
  /-- ENCODE and DECODE: `r_word` and `r_len`. -/
  | word (w : Word) (len : Len)
  /-- BREAKDOWN: the five `f_*` outputs. -/
  | fields (s : BitVec 1) (e : BitVec 11) (elen : BitVec 4) (m : BitVec 52) (mlen : BitVec 6)
  /-- The transaction raised. -/
  | raised (e : Error)
  deriving DecidableEq, Repr

/-- Every output 0 (R193). -/
def Response.zero : Response where
  status := 0
  rWord := 0
  rLen := 0
  fSign := 0
  fExp := 0
  fExplen := 0
  fMan := 0
  fManlen := 0

/-- An answer on the output ports: an output that the operation does not drive, and every output but `status` of a raising
transaction, is 0 (R26, R193). -/
def Answer.onPorts : Answer → Response
  | .word w len => { Response.zero with status := statusOk, rWord := w, rLen := len }
  | .fields s e elen m mlen =>
    { Response.zero with status := statusOk, fSign := s, fExp := e, fExplen := elen, fMan := m, fManlen := mlen }
  | .raised e => { Response.zero with status := e.status }

/-- The end of a transaction: its answer is driven on the output ports, and nothing else changes (R12, R31). -/
def respond (a : Answer) (s : State) : Host.Outcome State Fault Refusal :=
  .next { s with response := some a.onPorts }

/-- TAKING AN EXCEPTION (R192): the response has the code in `status` and zero on every other output, "and that is all": nothing
is saved, no mode changes, control goes nowhere. There is nothing to return from (R194): the next step serves the next request. -/
def raise (e : Error) (s : State) : Host.Outcome State Fault Refusal := respond (.raised e) s

/-- ENCODE's answer (R130): `enc(F, val(fp64, a_word))`, of length `T`; `a_len` is not looked at (R131). -/
def encodeAnswer (F : FormatSpec) (r : Request) : Answer :=
  .word (BitVec.ofNat 64 (enc F (val fp64 r.aWord.toNat))) (BitVec.ofNat 7 F.T)

/-- DECODE's answer (R155): the check (R150), then `enc(fp64, val(F, a_word))`, of length 64 (R156). -/
def decodeAnswer (F : FormatSpec) (r : Request) : Answer :=
  if wellFormedFor F r.aWord r.aLen then
    .word (BitVec.ofNat 64 (enc fp64 (val F r.aWord.toNat))) 64
  else
    .raised .malformedInputError

/-- BREAKDOWN's answer (R170): DECODE's check (R172), then the three fields and the lengths of two of them. -/
def breakdownAnswer (F : FormatSpec) (r : Request) : Answer :=
  if wellFormedFor F r.aWord r.aLen then
    let f := split F r.aWord.toNat
    .fields (BitVec.ofBool f.sign) (BitVec.ofNat 11 f.expf) (BitVec.ofNat 4 F.E) (BitVec.ofNat 52 f.manf) (BitVec.ofNat 6 F.M)
  else
    .raised .malformedInputError

/-- The operation ENCODE on the ports. -/
def encodeOn (F : FormatSpec) (s : State) : Host.Outcome State Fault Refusal :=
  respond (encodeAnswer F s.request) s

/-- The operation DECODE on the ports. -/
def decodeOn (F : FormatSpec) (s : State) : Host.Outcome State Fault Refusal :=
  respond (decodeAnswer F s.request) s

/-- The operation BREAKDOWN on the ports. -/
def breakdownOn (F : FormatSpec) (s : State) : Host.Outcome State Fault Refusal :=
  respond (breakdownAnswer F s.request) s

/-- The command word on the ports, `CMD = op ‖ fmt` (R60). -/
def State.command (s : State) : BitVec 5 := s.request.op ++ s.request.fmt

/-- The ports with a command word driven on `op` and `fmt` (R60). -/
def Request.withCommand (r : Request) (c : BitVec 5) : Request := { r with op := opField c, fmt := fmtField c }

/-- The host's turn after a transaction (R215, log 4): it takes the response, and presents its next request if it has one lined
up; else it leaves the request as it is. -/
def State.hostTurn (s : State) : State where
  request := s.pending.headD s.request
  response := s.response
  pending := s.pending.tail
  delivered := s.delivered ++ s.response.toList

/-- The host's turn after a step's outcome; a stop is passed on. -/
def afterTransaction : Host.Outcome State Fault Refusal → Host.Outcome State Fault Refusal
  | .next s => .next s.hostTurn
  | .fault r => .fault r
  | .refused r => .refused r

end Sys2Proof.Machine
end

