-- ==== Sys2Proof/Machine/Breakdown.lean ====
section
/-! DEFINITION. BREAKDOWN: the bit-field view (R170), one meaning per format. -/
namespace Sys2Proof.Machine

/-- `BREAKDOWN.fp32` (R170). -/
def execBreakdownFp32 (s : State) : Host.Outcome State Fault Refusal := breakdownOn fp32 s

/-- `BREAKDOWN.fp64` (R170). -/
def execBreakdownFp64 (s : State) : Host.Outcome State Fault Refusal := breakdownOn fp64 s

/-- `BREAKDOWN.fp16` (R170). -/
def execBreakdownFp16 (s : State) : Host.Outcome State Fault Refusal := breakdownOn fp16 s

/-- `BREAKDOWN.bf16` (R170). -/
def execBreakdownBf16 (s : State) : Host.Outcome State Fault Refusal := breakdownOn bf16 s

/-- `BREAKDOWN.fp8e4m3` (R170). -/
def execBreakdownFp8e4m3 (s : State) : Host.Outcome State Fault Refusal := breakdownOn fp8e4m3 s

/-- `BREAKDOWN.nvfp4e2m1` (R170). -/
def execBreakdownNvfp4e2m1 (s : State) : Host.Outcome State Fault Refusal := breakdownOn nvfp4e2m1 s

end Sys2Proof.Machine
end

