-- ==== Sys2Proof/Machine/Decode.lean ====
section
/-! DEFINITION. DECODE: the bits of a format to a binary64 word (R155), one meaning per format. -/
namespace Sys2Proof.Machine

/-- `DECODE.fp32` (R155). -/
def execDecodeFp32 (s : State) : Host.Outcome State Fault Refusal := decodeOn fp32 s

/-- `DECODE.fp64` (R155). -/
def execDecodeFp64 (s : State) : Host.Outcome State Fault Refusal := decodeOn fp64 s

/-- `DECODE.fp16` (R155). -/
def execDecodeFp16 (s : State) : Host.Outcome State Fault Refusal := decodeOn fp16 s

/-- `DECODE.bf16` (R155). -/
def execDecodeBf16 (s : State) : Host.Outcome State Fault Refusal := decodeOn bf16 s

/-- `DECODE.fp8e4m3` (R155). -/
def execDecodeFp8e4m3 (s : State) : Host.Outcome State Fault Refusal := decodeOn fp8e4m3 s

/-- `DECODE.nvfp4e2m1` (R155). -/
def execDecodeNvfp4e2m1 (s : State) : Host.Outcome State Fault Refusal := decodeOn nvfp4e2m1 s

end Sys2Proof.Machine
end

