-- ==== Sys2Proof/Machine/Encode.lean ====
section
/-! DEFINITION. ENCODE: a binary64 word to the bits of a format (R130), one meaning per format. -/
namespace Sys2Proof.Machine

/-- `ENCODE.fp32` (R130). -/
def execEncodeFp32 (s : State) : Host.Outcome State Fault Refusal := encodeOn fp32 s

/-- `ENCODE.fp64` (R130). -/
def execEncodeFp64 (s : State) : Host.Outcome State Fault Refusal := encodeOn fp64 s

/-- `ENCODE.fp16` (R130). -/
def execEncodeFp16 (s : State) : Host.Outcome State Fault Refusal := encodeOn fp16 s

/-- `ENCODE.bf16` (R130). -/
def execEncodeBf16 (s : State) : Host.Outcome State Fault Refusal := encodeOn bf16 s

/-- `ENCODE.fp8e4m3` (R130). -/
def execEncodeFp8e4m3 (s : State) : Host.Outcome State Fault Refusal := encodeOn fp8e4m3 s

/-- `ENCODE.nvfp4e2m1` (R130). -/
def execEncodeNvfp4e2m1 (s : State) : Host.Outcome State Fault Refusal := encodeOn nvfp4e2m1 s

end Sys2Proof.Machine
end

