-- ==== Sys2Proof/Machine/Dispatch.lean ====
section
/-! DEFINITION. The dispatch: one arm per command (R66). -/
namespace Sys2Proof.Machine

def exec (i : Instr) (s : State) : Host.Outcome State Fault Refusal :=
  match i with
  | .encodeFp32 => Sys2Proof.Machine.execEncodeFp32 s
  | .encodeFp64 => Sys2Proof.Machine.execEncodeFp64 s
  | .encodeFp16 => Sys2Proof.Machine.execEncodeFp16 s
  | .encodeBf16 => Sys2Proof.Machine.execEncodeBf16 s
  | .encodeFp8e4m3 => Sys2Proof.Machine.execEncodeFp8e4m3 s
  | .encodeNvfp4e2m1 => Sys2Proof.Machine.execEncodeNvfp4e2m1 s
  | .decodeFp32 => Sys2Proof.Machine.execDecodeFp32 s
  | .decodeFp64 => Sys2Proof.Machine.execDecodeFp64 s
  | .decodeFp16 => Sys2Proof.Machine.execDecodeFp16 s
  | .decodeBf16 => Sys2Proof.Machine.execDecodeBf16 s
  | .decodeFp8e4m3 => Sys2Proof.Machine.execDecodeFp8e4m3 s
  | .decodeNvfp4e2m1 => Sys2Proof.Machine.execDecodeNvfp4e2m1 s
  | .breakdownFp32 => Sys2Proof.Machine.execBreakdownFp32 s
  | .breakdownFp64 => Sys2Proof.Machine.execBreakdownFp64 s
  | .breakdownFp16 => Sys2Proof.Machine.execBreakdownFp16 s
  | .breakdownBf16 => Sys2Proof.Machine.execBreakdownBf16 s
  | .breakdownFp8e4m3 => Sys2Proof.Machine.execBreakdownFp8e4m3 s
  | .breakdownNvfp4e2m1 => Sys2Proof.Machine.execBreakdownNvfp4e2m1 s

end Sys2Proof.Machine
end

