-- ==== Sys2Proof/Machine/Step.lean ====
section
/-! DEFINITION. One step is one transaction (R12, R31) and the host's turn after it (R215). -/
namespace Sys2Proof.Machine

/-- The transaction presented on the ports (R66): a command runs, a reserved command word raises its error. -/
def transaction (s : State) : Host.Outcome State Fault Refusal :=
  match decode s.command with
  | .command i => exec i s
  | .rejected e => raise (errorOfReject e) s

/-- One step. -/
def step (s : State) : Host.Outcome State Fault Refusal := afterTransaction (transaction s)

/-- The state with a command word driven on the input ports `op` and `fmt`, where a step reads its command (R24, R60); the
operand ports stay as they are. -/
def State.withFetchWord (s : State) (nbits w : Nat) : State :=
  { s with request := s.request.withCommand (commandOfTableWord nbits w) }

end Sys2Proof.Machine
end

