-- ==== Sys2Proof/Machine/Exact.lean ====
section
/-! DEFINITION. The rules' own formulas over the rationals (R7, R10, R11, R96, R120) and the whole block as one function (R31, R66):
what the statements hold the machine against. The machine does not call it. -/
namespace Sys2Proof.Machine

/-- The real `k * 2^j` a magnitude denotes (R97 (a)). -/
def Magnitude.toRat (a : Magnitude) : ℚ := (a.k : ℚ) * 2 ^ a.j

/-- `rhaz(y) = floor(y + 1/2)` (R11); every `y` that occurs is non-negative, so the floor is a natural number. -/
def Exact.rhaz (y : ℚ) : Nat := ⌊y + 1 / 2⌋₊

/-- `val(F, w)`, the pseudocode of R96. -/
def Exact.val (F : FormatSpec) (w : Nat) : XReal ℚ :=
  let f := split F w
  if f.expf = ones F.E then
    if f.manf = 0 then .inf f.sign else .nan
  else if f.expf = 0 then
    if f.manf = 0 then .zero f.sign else .fin f.sign ((f.manf : ℚ) * 2 ^ (-(F.B - 1 + (F.M : ℤ))))
  else
    .fin f.sign ((1 + (f.manf : ℚ) / 2 ^ F.M) * 2 ^ ((f.expf : ℤ) - F.B))

/-- `enc(F, Fin(s, a))`, the pseudocode of R120. `Int.log 2 a` is the unique integer `e` with `2^e <= a < 2^(e+1)` (R11). -/
def Exact.encFinite (F : FormatSpec) (s : Bool) (a : ℚ) : Nat :=
  let e := Int.log 2 a
  let be := e + F.B
  if be ≤ 0 then
    let q := Exact.rhaz (a * 2 ^ (F.B - 1 + (F.M : ℤ)))
    if q = 2 ^ F.M then
      if ones F.E ≤ 1 then pack F s (ones F.E) 0 else pack F s 1 0
    else pack F s 0 q
  else if (ones F.E : ℤ) ≤ be then
    pack F s (ones F.E) 0
  else
    let q := Exact.rhaz ((a / 2 ^ e - 1) * 2 ^ F.M)
    if q = 2 ^ F.M then
      if (ones F.E : ℤ) ≤ be + 1 then pack F s (ones F.E) 0 else pack F s (be + 1).toNat 0
    else pack F s be.toNat q

/-- `enc(F, x)`, the pseudocode of R120. -/
def Exact.enc (F : FormatSpec) : XReal ℚ → Nat
  | .nan => pack F false (ones F.E) (2 ^ (F.M - 1))
  | .inf s => pack F s (ones F.E) 0
  | .zero s => pack F s 0 0
  | .fin s a => Exact.encFinite F s a

/-- The response that holds `r_word` and `r_len` and nothing else (R26, R193). -/
def Exact.wordResponse (w len : Nat) : Response where
  status := 0
  rWord := BitVec.ofNat 64 w
  rLen := BitVec.ofNat 7 len
  fSign := 0
  fExp := 0
  fExplen := 0
  fMan := 0
  fManlen := 0

/-- The response that holds the `f_*` outputs and nothing else (R26, R193). -/
def Exact.fieldsResponse (s e elen m mlen : Nat) : Response where
  status := 0
  rWord := 0
  rLen := 0
  fSign := BitVec.ofNat 1 s
  fExp := BitVec.ofNat 11 e
  fExplen := BitVec.ofNat 4 elen
  fMan := BitVec.ofNat 52 m
  fManlen := BitVec.ofNat 6 mlen

/-- The response of a raising transaction (R192, R193). -/
def Exact.errorResponse (status : Nat) : Response where
  status := BitVec.ofNat 2 status
  rWord := 0
  rLen := 0
  fSign := 0
  fExp := 0
  fExplen := 0
  fMan := 0
  fManlen := 0

/-- The operand check of DECODE and BREAKDOWN fails: `a_len != T` or `a_word >= 2^T` (R150, R172). -/
def Exact.malformed (F : FormatSpec) (r : Request) : Bool :=
  decide (r.aLen.toNat ≠ F.T) || decide (2 ^ F.T ≤ r.aWord.toNat)

/-- The response of ENCODE (R130). -/
def Exact.encodeResponse (F : FormatSpec) (r : Request) : Response :=
  Exact.wordResponse (Exact.enc F (Exact.val fp64 r.aWord.toNat)) F.T

/-- The response of DECODE (R155). -/
def Exact.decodeResponse (F : FormatSpec) (r : Request) : Response :=
  if Exact.malformed F r then Exact.errorResponse 2
  else Exact.wordResponse (Exact.enc fp64 (Exact.val F r.aWord.toNat)) 64

/-- The response of BREAKDOWN (R170): the fields `a_word[T-1]`, `a_word[T-2:M]`, `a_word[M-1:0]`, each as R8 slices a word. -/
def Exact.breakdownResponse (F : FormatSpec) (r : Request) : Response :=
  if Exact.malformed F r then Exact.errorResponse 2
  else
    let w := r.aWord.toNat
    Exact.fieldsResponse (w / 2 ^ (F.T - 1) % 2) (w / 2 ^ F.M % 2 ^ F.E) F.E (w % 2 ^ F.M) F.M

/-- `transact : Request -> Response` (R31), the dispatch of R66. -/
def Exact.transact (r : Request) : Response :=
  if r.op = 3 then Exact.errorResponse 3
  else if 6 ≤ r.fmt.toNat then Exact.errorResponse 1
  else
    match fmtSpec r.fmt with
    | none => Exact.errorResponse 1
    | some F =>
      if r.op = 0 then Exact.encodeResponse F r
      else if r.op = 1 then Exact.decodeResponse F r
      else Exact.breakdownResponse F r

/-- The magnitude of a finite value, 0 for a zero (R10); none for NaN and the infinities. -/
def XReal.magnitude : XReal ℚ → Option ℚ
  | .nan => none
  | .inf _ => none
  | .zero _ => some 0
  | .fin _ a => some a

/-- The word of `Fin(s, a)` in the form of R133: one addition and one comparison. -/
def Exact.oneAddition (F : FormatSpec) (s : Bool) (a : ℚ) : Nat :=
  let e := Int.log 2 a
  let be := e + F.B
  let top := ones F.E * 2 ^ F.M
  let fieldWord :=
    if be ≤ 0 then
      let m := Exact.rhaz (a * 2 ^ (F.B - 1 + (F.M : ℤ)))
      if m < top then m else top
    else if (ones F.E : ℤ) ≤ be then top
    else
      let m := be.toNat * 2 ^ F.M + Exact.rhaz ((a / 2 ^ e - 1) * 2 ^ F.M)
      if m < top then m else top
  s.toNat * 2 ^ (F.E + F.M) + fieldWord

/-- The binary64 word of DECODE built from the fields (R154), for a catalog format other than fp64. -/
def Exact.decodeBits (F : FormatSpec) (w : Nat) : Nat :=
  let f := split F w
  let word (expf manf : Nat) : Nat := f.sign.toNat * 2 ^ 63 + expf * 2 ^ 52 + manf
  if f.expf = ones F.E then
    if f.manf = 0 then word 0x7FF 0 else 0x7FF8000000000000
  else if f.expf = 0 then
    if f.manf = 0 then word 0 0
    else
      let k := Nat.log2 f.manf + 1
      word ((k : ℤ) - F.B - F.M + 1023).toNat ((f.manf - 2 ^ (k - 1)) * 2 ^ (53 - k))
  else
    word ((f.expf : ℤ) - F.B + 1023).toNat (f.manf * 2 ^ (52 - F.M))

end Sys2Proof.Machine
end

