-- ==== Sys2Proof/Machine/Program.lean ====
section
/-! DEFINITION. The host's side: loading requests, the checks of a program's lines, and running a program of R70 (a finite list of transactions, R215), in which a name
forwards an earlier response's `r_word`, `r_len` as `a_word`, `a_len` (R71, R212 (b)). None of it is the block's (R71). -/
namespace Sys2Proof.Machine

/-- The host presents the first request and lines up the rest (R215, log 5). -/
def State.load (s : State) (r : Request) (rest : List Request) : State := { s with request := r, pending := rest }

/-- The length tag R70 implies for a literal operand: `T` of the format for DECODE and BREAKDOWN; for ENCODE, which ignores it, the
64 that R131 asks a host to drive. -/
def impliedLen (op : BitVec 2) (fmt : BitVec 3) : Option Len :=
  match operationOf op, fmtSpec fmt with
  | some .encode, some _ => some 64
  | some .decode, some F => some (BitVec.ofNat 7 F.T)
  | some .breakdown, some F => some (BitVec.ofNat 7 F.T)
  | _, _ => none

/-- A literal with this implied length tag is written as R70 asks: "`0x` and exactly `ceil(T/4)` digits" for DECODE and BREAKDOWN, `0x`
and 16 digits for ENCODE (whose tag is 64), and the word is one that many digits write. Every `T` of the catalog is a multiple of 4,
so that bound is `w < 2^T` (`literal_request`, Laws/Run.lean). -/
def literalWritten (len : Len) (digits : Nat) (w : Word) : Bool :=
  decide (digits = (len.toNat + 3) / 4) && decide (w.toNat < 16 ^ digits)

end Sys2Proof.Machine

namespace Sys2Proof

/-- The line's command is one of the eighteen, so it has a mnemonic `<OP>.<fmt>` (R67, R70). -/
def Line.hasCommand (l : Line) : Bool := decide (l.op.toNat < 3) && decide (l.fmt.toNat < 6)

/-- A line's operand is one R70 can write after the lines `before`: a literal of exactly the digits R70 asks, for a command that has a
mnemonic; any tagged word, for any command (a raw request as in 95_test_vectors.md P3; DESIGN CHOICE, log 13); or a name bound by
an earlier line, "to a DECODE result" for ENCODE and "to an ENCODE result" for DECODE and BREAKDOWN. Whether the named response is
an error shows only when the program runs, and is not asked (log 16). -/
def Line.wellFormed (before : List Line) (l : Line) : Bool :=
  match l.operand with
  | .literal digits w =>
    match Sys2Proof.Machine.impliedLen l.op l.fmt with
    | none => false
    | some len => Sys2Proof.Machine.literalWritten len digits w
  | .tagged _ _ => true
  | .result n =>
    match before[n]? with
    | none => false
    | some b => l.hasCommand && b.hasCommand && decide (b.op = if l.op = 0 then 1 else 0)

/-- A program's lines are well formed, each after the lines before it. -/
def Line.allWellFormed (before : List Line) : List Line → Bool
  | [] => true
  | l :: ls => l.wellFormed before && Line.allWellFormed (before ++ [l]) ls

end Sys2Proof

namespace Sys2Proof.Machine

/-- The request a line presents, given the responses of the lines before it (R70); `none` for a literal whose command has no
mnemonic, so no implied length, for a literal not written with the digits R70 asks, and for a name that no earlier line binds (log
13).

A name forwards `r_word`, `r_len` of the response it is bound to, whatever that response is. Two points of that are DESIGN CHOICEs:
- a name bound to a result of another kind than R70 writes (for example ENCODE of an ENCODE result), a name on or of a line with a
  reserved command: R70 does not say what such a line presents, it is not `Line.wellFormed`, and here it forwards all the same
  (log 15);
- a name bound to a response with `status != 0`: R193 and R212 (c) bar a host from using its outputs, the block checks nothing of
  it (R212), and here its zeros are forwarded untested (log 16). -/
def lineRequest (answers : List Response) (l : Line) : Option Request :=
  match l.operand with
  | .literal digits w =>
    match impliedLen l.op l.fmt with
    | none => none
    | some len =>
      if literalWritten len digits w then some { op := l.op, fmt := l.fmt, aWord := w, aLen := len } else none
  | .tagged len w => some { op := l.op, fmt := l.fmt, aWord := w, aLen := len }
  | .result n => answers[n]?.map fun r => { op := l.op, fmt := l.fmt, aWord := r.rWord, aLen := r.rLen }

/-- Running a program: each line's request is presented and answered in turn; `none` when a line presents no request
(`lineRequest`). It does not ask that a name be bound to a result of the right kind (log 15) or that a forwarded response be one without error (log 16). -/
def runProgram : List Line → State → Option State
  | [], s => some s
  | l :: ls, s =>
    match lineRequest s.delivered l with
    | none => none
    | some r =>
      match step (s.load r []) with
      | .next t => runProgram ls t
      | .fault _ => none
      | .refused _ => none

/-- The responses of a program run from reset (R215). -/
def programResponses (ls : List Line) : Option (List Response) := (runProgram ls State.reset).map State.delivered

end Sys2Proof.Machine
end

