-- ==== Sys2Proof/Safety.lean ====
section
/-! DEFINITION. What counts as a well-formed output of the block, as a good state and as a run without error. -/
namespace Sys2Proof.Machine

/-- Every output other than `status` is 0 (R193). -/
def Response.idle (r : Response) : Bool :=
  decide (r.rWord = 0) && decide (r.rLen = 0) && r.fSign == 0 && decide (r.fExp = 0) && decide (r.fExplen = 0) &&
    decide (r.fMan = 0) && decide (r.fManlen = 0)

/-- A well-formed result word: `r_len` is `T` of a format of the catalog and `r_word < 2^r_len` (R25), the
`f_*` outputs 0 (R193). -/
def Response.isWord (r : Response) : Bool :=
  catalog.any (fun F => decide (r.rLen.toNat = F.T)) && decide (r.rWord.toNat < 2 ^ r.rLen.toNat) && r.fSign == 0 &&
    decide (r.fExp = 0) && decide (r.fExplen = 0) && decide (r.fMan = 0) && decide (r.fManlen = 0)

/-- A well-formed breakdown: the two lengths are `E` and `M` of one format of the catalog, each field fits its length, and
`r_word`, `r_len` are 0 (R170, R193). -/
def Response.isFields (r : Response) : Bool :=
  catalog.any (fun F => decide (r.fExplen.toNat = F.E) && decide (r.fManlen.toNat = F.M)) &&
    decide (r.fExp.toNat < 2 ^ r.fExplen.toNat) && decide (r.fMan.toNat < 2 ^ r.fManlen.toNat) && decide (r.rWord = 0) &&
    decide (r.rLen = 0)

/-- A response the block can give: an error with every other output 0, or a word, or a breakdown (R26, R193). -/
def Response.wellFormed (r : Response) : Bool :=
  if r.status = 0 then r.isWord || r.isFields else r.idle

/-- Every response on the output ports and in the host's list is well formed. -/
def State.inv (s : State) : Prop :=
  (∀ r ∈ s.response, r.wellFormed = true) ∧ ∀ r ∈ s.delivered, r.wellFormed = true

/-- "no transaction returned an error": the premise R195 lets a claim take. -/
def State.noError (s : State) : Prop := ∀ r ∈ s.delivered, r.status = 0

end Sys2Proof.Machine
end

