-- ==== Sys2Proof/Certificates/Slice0/Obligations.lean ====
section
/-! DEFINITION. The statements for the provers, each from a rule of spec/ (OBLIGATIONS.json names it). -/

open Sys2Proof Sys2Proof.Machine

/-! ### The command word and the dispatch -/

/-- R60, R67: the encoder's word decodes to the command, and a word that decodes to a command is that command's word. -/
def Obligations.CommandWordRoundTrip : Prop :=
  (∀ i : Instr, i.wellFormed = true → decode (encode i) = .command i) ∧ ∀ c i, decode c = .command i → encode i = c

/-- R60, R61, R62, R67: command words written out bit by bit from the tables of R61 and R62. -/
def Obligations.WrittenOutCommandWordsDecode : Prop :=
  decode 0b00000#5 = .command .encodeFp32 ∧ decode 0b00100#5 = .command .encodeFp8e4m3 ∧
  decode 0b01010#5 = .command .decodeFp16 ∧ decode 0b01001#5 = .command .decodeFp64 ∧
  decode 0b10011#5 = .command .breakdownBf16 ∧ decode 0b10101#5 = .command .breakdownNvfp4e2m1 ∧
  decode 0b01110#5 = .rejected .reservedFormat ∧ decode 0b11111#5 = .rejected .reservedOperation

/-- R67: the 32 values of `CMD`. -/
def Obligations.OpcodeMapDividesCommands : Prop :=
  ((List.range 32).filter fun c => decide (decodeTableWord 5 c ≠ none)).length = 18 ∧
  ∀ s : State,
    let c := s.request.op.toNat * 8 + s.request.fmt.toNat
    if 24 ≤ c then transaction s = .next { s with response := some (Exact.errorResponse 3) }
    else if c ∈ [6, 7, 14, 15, 22, 23] then transaction s = .next { s with response := some (Exact.errorResponse 1) }
    else ∃ i : Instr, i.operation.code = s.request.op ∧ i.format.code = s.request.fmt ∧ (encode i).toNat = c ∧
      transaction s = exec i s

/-- When the command word on the ports decodes to a command, a step is that command and the host's turn after it: the host takes
the response, and presents its next request if it has one (the host's turn is the model's choice, log 4). -/
def Obligations.StepRunsDecodedCommand : Prop :=
  ∀ (s t : State) (i : Instr), i.wellFormed = true → decode (s.request.op ++ s.request.fmt) = .command i → exec i s = .next t →
    step s = .next
      { request := t.pending.headD t.request
        response := t.response
        pending := t.pending.tail
        delivered := t.delivered ++ t.response.toList }

/-- A word of the opcode table driven on the command ports runs as the very next step (log 5, log 6), and the host takes its turn
after it (the host's turn is the model's choice, log 4). -/
def Obligations.FetchedTableWordRuns : Prop :=
  ∀ (s t : State) (nbits w : Nat) (i : Instr), decodeTableWord nbits w = some i → exec i (s.withFetchWord nbits w) = .next t →
    step (s.withFetchWord nbits w) = .next t.hostTurn

/-- R187, R188, R189, R191: which status a transaction reports, on every request. -/
def Obligations.StatusFollowsErrorOrder : Prop :=
  ∀ s : State, ∃ r : Response, transaction s = .next { s with response := some r } ∧
    (s.request.op = 3 → r.status = 3) ∧
    (s.request.op ≠ 3 → 6 ≤ s.request.fmt.toNat → r.status = 1) ∧
    ∀ F, s.request.op ≠ 3 → s.request.fmt.toNat < 6 → fmtSpec s.request.fmt = some F →
      r.status =
        if s.request.op ≠ 0 ∧ (s.request.aLen.toNat ≠ F.T ∨ 2 ^ F.T ≤ s.request.aWord.toNat) then 2 else 0

/-- R31, R66: a transaction drives the response of `transact` on the output ports, and reads and writes nothing else. -/
def Obligations.TransactionIsTransact : Prop :=
  ∀ s : State, transaction s = .next { s with response := some (Exact.transact s.request) }

/-- R46: two states that present the same request get the same response, whatever came before. -/
def Obligations.ResponseDependsOnRequestAlone : Prop :=
  ∀ s₁ s₂ : State, s₁.request = s₂.request →
    ∃ r : Response, transaction s₁ = .next { s₁ with response := some r } ∧ transaction s₂ = .next { s₂ with response := some r }

/-- R214: every transaction completes with a response, and with it every step. -/
def Obligations.EveryTransactionCompletes : Prop :=
  ∀ s : State, (∃ r : Response, transaction s = .next { s with response := some r }) ∧ ∃ t, step s = .next t

/-- R20, R28, R31: what a command leaves unchanged, for all eighteen; a command reads the request and drives the output ports. -/
def Obligations.CommandsChangeOnlyTheOutputPorts : Prop :=
  ∀ (i : Instr) (s : State), ∃ r : Response, exec i s = .next { s with response := some r } ∧
    ∀ t : State, exec i s = .next t →
      t.request = s.request ∧ t.pending = s.pending ∧ t.delivered = s.delivered ∧ t.response = some r

/-- R193: the outputs of a raising transaction, and the unused outputs of a successful one. -/
def Obligations.UndrivenOutputsAreZero : Prop :=
  ∀ (s t : State) (r : Response), transaction s = .next t → t.response = some r →
    (r.status ≠ 0 → r.rWord = 0 ∧ r.rLen = 0 ∧ r.fSign = 0 ∧ r.fExp = 0 ∧ r.fExplen = 0 ∧ r.fMan = 0 ∧ r.fManlen = 0) ∧
    (r.status = 0 → s.request.op = 0 ∨ s.request.op = 1 →
      r.fSign = 0 ∧ r.fExp = 0 ∧ r.fExplen = 0 ∧ r.fMan = 0 ∧ r.fManlen = 0) ∧
    (r.status = 0 → s.request.op = 2 → r.rWord = 0 ∧ r.rLen = 0)

/-- R150, R172, R188: DECODE and BREAKDOWN raise MalformedInputError exactly on a BitString that is not well formed for the format. -/
def Obligations.MalformedBitStringRaises : Prop :=
  ∀ (s : State) (i : Instr),
    i ∈ [Instr.decodeFp32, .decodeFp64, .decodeFp16, .decodeBf16, .decodeFp8e4m3, .decodeNvfp4e2m1, .breakdownFp32, .breakdownFp64,
      .breakdownFp16, .breakdownBf16, .breakdownFp8e4m3, .breakdownNvfp4e2m1] →
    (exec i s = .next { s with response := some (Exact.errorResponse 2) } ↔
      s.request.aLen.toNat ≠ (specOf i.format).T ∨ 2 ^ (specOf i.format).T ≤ s.request.aWord.toNat)

/-! ### The catalog and the value of a word -/

/-- R92, R93: the catalog's numbers, and that each entry meets the contract of R90. -/
def Obligations.CatalogNumbersAreValid : Prop :=
  (∀ fmt F, fmtSpec fmt = some F → 1 ≤ F.M ∧ 1 ≤ F.E ∧ F.signBits = 1 ∧ F.T = F.signBits + F.E + F.M) ∧
  fmtSpec 0 = some ⟨32, 1, 8, 23, 127⟩ ∧ fmtSpec 1 = some ⟨64, 1, 11, 52, 1023⟩ ∧ fmtSpec 2 = some ⟨16, 1, 5, 10, 15⟩ ∧
  fmtSpec 3 = some ⟨16, 1, 8, 7, 127⟩ ∧ fmtSpec 4 = some ⟨8, 1, 4, 3, 7⟩ ∧ fmtSpec 5 = some ⟨4, 1, 2, 1, 1⟩ ∧
  fmtSpec 6 = none ∧ fmtSpec 7 = none

/-- R64, R65: `pack` and the split are inverse, at every value the fields admit. -/
def Obligations.PackAndSplitAreInverse : Prop :=
  ∀ F : FormatSpec, F.valid = true →
    (∀ (s : Bool) (e m : Nat), e ≤ ones F.E → m ≤ ones F.M →
      pack F s e m < 2 ^ F.T ∧ split F (pack F s e m) = { sign := s, expf := e, manf := m }) ∧
    ∀ w, w < 2 ^ F.T →
      (split F w).expf ≤ ones F.E ∧ (split F w).manf ≤ ones F.M ∧
      pack F (split F w).sign (split F w).expf (split F w).manf = w

/-- R97 (c): the field word orders the magnitudes. -/
def Obligations.FieldWordOrdersMagnitudes : Prop :=
  ∀ (F : FormatSpec) (w₁ w₂ : Nat) (v₁ v₂ : ℚ), F.valid = true → w₁ < 2 ^ F.T → w₂ < 2 ^ F.T →
    (Exact.val F w₁).magnitude = some v₁ → (Exact.val F w₂).magnitude = some v₂ →
    (v₁ < v₂ ↔ w₁ % 2 ^ (F.E + F.M) < w₂ % 2 ^ (F.E + F.M)) ∧ (v₁ = 0 ↔ w₁ % 2 ^ (F.E + F.M) = 0)

/-- R97 (d): the least positive value, the least normal, the largest finite. -/
def Obligations.FormatRangeExtremes : Prop :=
  ∀ F : FormatSpec, F.valid = true → 2 ≤ F.E →
    Exact.val F 1 = .fin false (2 ^ (1 - F.B - (F.M : ℤ))) ∧
    Exact.val F (2 ^ F.M) = .fin false (2 ^ (1 - F.B)) ∧
    Exact.val F ((ones F.E - 1) * 2 ^ F.M + ones F.M) =
      .fin false ((2 - 1 / 2 ^ F.M) * 2 ^ ((ones F.E : ℤ) - 1 - F.B)) ∧
    ∀ w s a, w < 2 ^ F.T → Exact.val F w = .fin s a →
      2 ^ (1 - F.B - (F.M : ℤ)) ≤ a ∧ a ≤ (2 - 1 / 2 ^ F.M) * 2 ^ ((ones F.E : ℤ) - 1 - F.B)

/-- R100: the all-ones exponent is infinity or NaN in every format, the two narrow ones included. -/
def Obligations.AllOnesExponentIsInfinityOrNaN : Prop :=
  (∀ F ∈ catalog, ∀ w, w < 2 ^ F.T → (split F w).expf = ones F.E →
    Exact.val F w = if (split F w).manf = 0 then .inf (split F w).sign else .nan) ∧
  Exact.val fp8e4m3 0x77 = .fin false 240 ∧
  (∀ w v, w < 2 ^ 8 → (Exact.val fp8e4m3 w).magnitude = some v → v ≤ 240) ∧
  Exact.val fp8e4m3 0x78 = .inf false ∧ Exact.val fp8e4m3 0xF8 = .inf true ∧
  (List.range 16).map (Exact.val nvfp4e2m1) =
    [.zero false, .fin false (1 / 2), .fin false 1, .fin false (3 / 2), .fin false 2, .fin false 3, .inf false, .nan,
      .zero true, .fin true (1 / 2), .fin true 1, .fin true (3 / 2), .fin true 2, .fin true 3, .inf true, .nan]

/-! ### ENCODE -/

/-- R130: each ENCODE command answers the word of its operand's value, for every state. -/
def Obligations.EncodeAnswersExactWord : Prop :=
  ∀ s : State,
    let x := Exact.val fp64 s.request.aWord.toNat
    exec .encodeFp32 s = .next { s with response := some (Exact.wordResponse (Exact.enc fp32 x) 32) } ∧
    exec .encodeFp64 s = .next { s with response := some (Exact.wordResponse (Exact.enc fp64 x) 64) } ∧
    exec .encodeFp16 s = .next { s with response := some (Exact.wordResponse (Exact.enc fp16 x) 16) } ∧
    exec .encodeBf16 s = .next { s with response := some (Exact.wordResponse (Exact.enc bf16 x) 16) } ∧
    exec .encodeFp8e4m3 s = .next { s with response := some (Exact.wordResponse (Exact.enc fp8e4m3 x) 8) } ∧
    exec .encodeNvfp4e2m1 s = .next { s with response := some (Exact.wordResponse (Exact.enc nvfp4e2m1 x) 4) }

/-- R131: ENCODE does not look at `a_len`. -/
def Obligations.EncodeIgnoresLengthTag : Prop :=
  ∀ (s : State) (i : Instr) (len : Len),
    i ∈ [Instr.encodeFp32, .encodeFp64, .encodeFp16, .encodeBf16, .encodeFp8e4m3, .encodeNvfp4e2m1] →
    ∃ r : Response, r.status = 0 ∧ exec i s = .next { s with response := some r } ∧
      exec i { s with request := { s.request with aLen := len } } =
        .next { s with request := { s.request with aLen := len }, response := some r }

/-- R121: the NaN word, in every format and from every binary64 NaN word. -/
def Obligations.EncodeNaNIsCanonical : Prop :=
  (∀ F : FormatSpec, F.valid = true → enc F .nan = pack F false (ones F.E) (2 ^ (F.M - 1))) ∧
  ∀ s : State, s.request.aWord.extractLsb' 52 11 = 0x7FF#11 → s.request.aWord.extractLsb' 0 52 ≠ 0#52 →
    exec .encodeFp32 s = .next { s with response := some (Exact.wordResponse 0x7FC00000 32) } ∧
    exec .encodeFp64 s = .next { s with response := some (Exact.wordResponse 0x7FF8000000000000 64) } ∧
    exec .encodeFp16 s = .next { s with response := some (Exact.wordResponse 0x7E00 16) } ∧
    exec .encodeBf16 s = .next { s with response := some (Exact.wordResponse 0x7FC0 16) } ∧
    exec .encodeFp8e4m3 s = .next { s with response := some (Exact.wordResponse 0x7C 8) } ∧
    exec .encodeNvfp4e2m1 s = .next { s with response := some (Exact.wordResponse 0x7 4) }

/-- R122: the infinity words, in every format. -/
def Obligations.EncodeInfinityWords : Prop :=
  (∀ (F : FormatSpec) (b : Bool), F.valid = true → enc F (.inf b) = pack F b (ones F.E) 0) ∧
  (∀ s : State, s.request.aWord = 0x7FF0000000000000 →
    exec .encodeFp32 s = .next { s with response := some (Exact.wordResponse 0x7F800000 32) } ∧
    exec .encodeFp64 s = .next { s with response := some (Exact.wordResponse 0x7FF0000000000000 64) } ∧
    exec .encodeFp16 s = .next { s with response := some (Exact.wordResponse 0x7C00 16) } ∧
    exec .encodeBf16 s = .next { s with response := some (Exact.wordResponse 0x7F80 16) } ∧
    exec .encodeFp8e4m3 s = .next { s with response := some (Exact.wordResponse 0x78 8) } ∧
    exec .encodeNvfp4e2m1 s = .next { s with response := some (Exact.wordResponse 0x6 4) }) ∧
  ∀ s : State, s.request.aWord = 0xFFF0000000000000 →
    exec .encodeFp32 s = .next { s with response := some (Exact.wordResponse 0xFF800000 32) } ∧
    exec .encodeFp64 s = .next { s with response := some (Exact.wordResponse 0xFFF0000000000000 64) } ∧
    exec .encodeFp16 s = .next { s with response := some (Exact.wordResponse 0xFC00 16) } ∧
    exec .encodeBf16 s = .next { s with response := some (Exact.wordResponse 0xFF80 16) } ∧
    exec .encodeFp8e4m3 s = .next { s with response := some (Exact.wordResponse 0xF8 8) } ∧
    exec .encodeNvfp4e2m1 s = .next { s with response := some (Exact.wordResponse 0xE 4) }

/-- R123: the zero words; the sign of the zero is bit 63 of the operand. -/
def Obligations.EncodeZeroKeepsSign : Prop :=
  (∀ F : FormatSpec, F.valid = true →
    enc F (.zero false) = 0 ∧ enc F (.zero true) = 2 ^ (F.T - 1) ∧ ∀ b, enc F (.zero b) = pack F b 0 0) ∧
  ∀ (s : State) (f : Format), s.request.aWord.extractLsb' 0 63 = 0#63 →
    exec (Instr.ofParts .encode f) s = .next
      { s with response := some (Exact.wordResponse
          (if s.request.aWord.getLsbD 63 then 2 ^ ((specOf f).T - 1) else 0) (specOf f).T) }

/-- R11, R124: the exponent is the exact integer logarithm. -/
def Obligations.ExponentIsExactLogarithm : Prop :=
  ∀ a : Magnitude, 0 < a.k → (2 : ℚ) ^ flog2 a ≤ a.toRat ∧ a.toRat < 2 ^ (flog2 a + 1)

/-- R126: round half away from zero, decided by the bit of weight one half; where it differs from nearest-even. -/
def Obligations.RoundingIsHalfAwayFromZero : Prop :=
  (∀ y : Magnitude, rhaz y = ⌊y.toRat + 1 / 2⌋₊ ∧
    rhaz y = ⌊y.toRat⌋₊ + (if 1 / 2 ≤ Int.fract y.toRat then 1 else 0)) ∧
  (∀ (y : Magnitude) (n : Nat), y.toRat = n + 1 / 2 → rhaz y = n + 1) ∧
  ∀ s : State, s.request.aWord = 0x3FF0020000000000 →
    exec .encodeFp16 s = .next { s with response := some (Exact.wordResponse 0x3C01 16) }

/-- R125: the normal branch of the encoder, on any magnitude and any valid FormatSpec. -/
def Obligations.NormalBranchRounds : Prop :=
  ∀ (F : FormatSpec) (s : Bool) (a : Magnitude) (e : ℤ) (q : Nat), F.valid = true → 0 < a.k →
    2 ^ e ≤ a.toRat → a.toRat < 2 ^ (e + 1) → 1 ≤ e + F.B → e + F.B ≤ 2 ^ F.E - 2 →
    q = ⌊(a.toRat / 2 ^ e - 1) * 2 ^ F.M + 1 / 2⌋₊ →
    q ≤ 2 ^ F.M ∧ (q < 2 ^ F.M → enc F (.fin s a) = pack F s (e + F.B).toNat q)

/-- R127: the carry out of the mantissa in the normal branch: when it happens and what it gives. -/
def Obligations.NormalCarryPropagates : Prop :=
  ∀ (F : FormatSpec) (s : Bool) (a : Magnitude) (e : ℤ) (q : Nat), F.valid = true → 0 < a.k →
    2 ^ e ≤ a.toRat → a.toRat < 2 ^ (e + 1) → 1 ≤ e + F.B → e + F.B ≤ 2 ^ F.E - 2 →
    q = ⌊(a.toRat / 2 ^ e - 1) * 2 ^ F.M + 1 / 2⌋₊ →
    (q = 2 ^ F.M ↔ 2 - 1 / 2 ^ (F.M + 1) ≤ a.toRat / 2 ^ e) ∧
    (q = 2 ^ F.M →
      if (ones F.E : ℤ) ≤ e + F.B + 1 then enc F (.fin s a) = pack F s (ones F.E) 0
      else enc F (.fin s a) = pack F s (e + F.B + 1).toNat 0 ∧
        Exact.val F (pack F s (e + F.B + 1).toNat 0) = .fin s (2 ^ (e + 1)))

/-- R128: the subnormal branch, its three outcomes and when each happens. -/
def Obligations.SubnormalBranchOutcomes : Prop :=
  ∀ (F : FormatSpec) (s : Bool) (a : Magnitude) (e : ℤ) (q : Nat), F.valid = true → 0 < a.k →
    2 ^ e ≤ a.toRat → a.toRat < 2 ^ (e + 1) → e + F.B ≤ 0 →
    q = ⌊a.toRat * 2 ^ (F.B - 1 + (F.M : ℤ)) + 1 / 2⌋₊ →
    q ≤ 2 ^ F.M ∧
    (1 ≤ q → q ≤ ones F.M → enc F (.fin s a) = pack F s 0 q) ∧
    (q = 0 ↔ a.toRat < 2 ^ (-F.B - (F.M : ℤ))) ∧ (q = 0 → enc F (.fin s a) = pack F s 0 0) ∧
    (a.toRat = 2 ^ (-F.B - (F.M : ℤ)) → enc F (.fin s a) = pack F s 0 1) ∧
    (q = 2 ^ F.M ↔ 2 ^ (1 - F.B) - 2 ^ (-F.B - (F.M : ℤ)) ≤ a.toRat) ∧
    (q = 2 ^ F.M →
      if ones F.E ≤ 1 then enc F (.fin s a) = pack F s (ones F.E) 0
      else enc F (.fin s a) = pack F s 1 0 ∧ Exact.val F (pack F s 1 0) = .fin s (2 ^ (1 - F.B)))

/-- R129: overflow is infinity of the operand's sign, and the condition on the exponent is one on the magnitude; which magnitudes
encode to infinity, the carry included. -/
def Obligations.OverflowSaturatesToInfinity : Prop :=
  ∀ (F : FormatSpec) (s : Bool) (a : Magnitude), F.valid = true → 0 < a.k →
    ((ones F.E : ℤ) ≤ flog2 a + F.B ↔ 2 ^ ((ones F.E : ℤ) - F.B) ≤ a.toRat) ∧
    ((ones F.E : ℤ) ≤ flog2 a + F.B → enc F (.fin s a) = pack F s (ones F.E) 0) ∧
    (2 ≤ F.E →
      (enc F (.fin s a) = pack F s (ones F.E) 0 ↔
        (2 - 1 / 2 ^ (F.M + 1)) * 2 ^ ((ones F.E : ℤ) - 1 - F.B) ≤ a.toRat))

/-- R132: the exponent ranges, for every finite non-zero binary64 operand and every format of the catalog. -/
def Obligations.OperandExponentRanges : Prop :=
  ∀ (d : Nat) (s : Bool) (a : Magnitude), d < 2 ^ 64 → val fp64 d = .fin s a →
    (flog2 a = if (split fp64 d).expf = 0 then -1075 + ((Nat.log2 (split fp64 d).manf : ℤ) + 1)
      else (split fp64 d).expf - 1023) ∧
    -1074 ≤ flog2 a ∧ flog2 a ≤ 1023 ∧
    ∀ F ∈ catalog, -1073 ≤ flog2 a + F.B ∧ flog2 a + F.B ≤ 2046

/-- R133: one addition and one comparison give the encoder's word. -/
def Obligations.EncodeIsOneAddition : Prop :=
  ∀ (F : FormatSpec) (s : Bool) (a : Magnitude), F.valid = true → 0 < a.k →
    enc F (.fin s a) = Exact.oneAddition F s a.toRat

/-- R134: encoding a word's value gives the word back, or the NaN word of R121. -/
def Obligations.EncodeInvertsValue : Prop :=
  ∀ (F : FormatSpec) (w : Nat), F.valid = true → w < 2 ^ F.T →
    (Exact.val F w ≠ .nan → enc F (val F w) = w) ∧
    (Exact.val F w = .nan → enc F (val F w) = pack F false (ones F.E) (2 ^ (F.M - 1)))

/-- R135 (a): sign symmetry. -/
def Obligations.EncodeSignSymmetry : Prop :=
  ∀ F : FormatSpec, F.valid = true →
    (∀ a : Magnitude, 0 < a.k → enc F (.fin true a) = enc F (.fin false a) + 2 ^ (F.T - 1)) ∧
    enc F (.zero true) = enc F (.zero false) + 2 ^ (F.T - 1) ∧
    enc F (.inf true) = enc F (.inf false) + 2 ^ (F.T - 1) ∧ enc F .nan < 2 ^ (F.T - 1)

/-- R135 (b): a larger magnitude never gets a smaller field word. -/
def Obligations.EncodeIsMonotone : Prop :=
  ∀ (F : FormatSpec) (s : Bool) (a₁ a₂ : Magnitude), F.valid = true → 0 < a₁.k → a₁.toRat ≤ a₂.toRat →
    enc F (.fin s a₁) % 2 ^ (F.E + F.M) ≤ enc F (.fin s a₂) % 2 ^ (F.E + F.M)

/-- R135 (c): a finite result is a value of the format nearest to the operand, ties going to the larger magnitude. -/
def Obligations.EncodeRoundsToNearest : Prop :=
  ∀ (F : FormatSpec) (s : Bool) (a : Magnitude) (v : ℚ), F.valid = true → 0 < a.k →
    (Exact.val F (enc F (.fin s a))).magnitude = some v →
    ∀ (w : Nat) (v' : ℚ), w < 2 ^ F.T → (Exact.val F w).magnitude = some v' →
      |a.toRat - v| ≤ |a.toRat - v'| ∧ (|a.toRat - v| = |a.toRat - v'| → v' ≤ v)

/-- R135 (d), (e): a value that is not NaN never gets a NaN word, and the sign of the value is the sign of the word. -/
def Obligations.EncodeKeepsClassAndSign : Prop :=
  ∀ F : FormatSpec, F.valid = true →
    Exact.val F (enc F .nan) = .nan ∧
    ∀ b : Bool, Exact.val F (enc F (.inf b)) = .inf b ∧ Exact.val F (enc F (.zero b)) = .zero b ∧
      ∀ a : Magnitude, 0 < a.k →
        Exact.val F (enc F (.fin b a)) = .inf b ∨ Exact.val F (enc F (.fin b a)) = .zero b ∨
        ∃ v : ℚ, Exact.val F (enc F (.fin b a)) = .fin b v

/-- R25, R65, R120: the encoder's word has exactly `T` bits. -/
def Obligations.EncodedWordHasFormatWidth : Prop :=
  ∀ (F : FormatSpec) (d : Nat), F.valid = true → enc F (val fp64 d) < 2 ^ F.T

/-! ### DECODE -/

/-- R155: each DECODE command answers the binary64 word of a well-formed operand's value, and raises on any other operand. -/
def Obligations.DecodeAnswersExactWord : Prop :=
  ∀ s : State,
    let n := s.request.aLen.toNat
    let w := s.request.aWord.toNat
    (n = 32 → w < 2 ^ 32 →
      exec .decodeFp32 s = .next { s with response := some (Exact.wordResponse (Exact.enc fp64 (Exact.val fp32 w)) 64) }) ∧
    (n = 64 →
      exec .decodeFp64 s = .next { s with response := some (Exact.wordResponse (Exact.enc fp64 (Exact.val fp64 w)) 64) }) ∧
    (n = 16 → w < 2 ^ 16 →
      exec .decodeFp16 s = .next { s with response := some (Exact.wordResponse (Exact.enc fp64 (Exact.val fp16 w)) 64) }) ∧
    (n = 16 → w < 2 ^ 16 →
      exec .decodeBf16 s = .next { s with response := some (Exact.wordResponse (Exact.enc fp64 (Exact.val bf16 w)) 64) }) ∧
    (n = 8 → w < 2 ^ 8 →
      exec .decodeFp8e4m3 s = .next { s with response := some (Exact.wordResponse (Exact.enc fp64 (Exact.val fp8e4m3 w)) 64) }) ∧
    (n = 4 → w < 2 ^ 4 →
      exec .decodeNvfp4e2m1 s = .next
        { s with response := some (Exact.wordResponse (Exact.enc fp64 (Exact.val nvfp4e2m1 w)) 64) }) ∧
    ∀ i ∈ [Instr.decodeFp32, .decodeFp64, .decodeFp16, .decodeBf16, .decodeFp8e4m3, .decodeNvfp4e2m1],
      n ≠ (specOf i.format).T ∨ 2 ^ (specOf i.format).T ≤ w → exec i s = .next { s with response := some (Exact.errorResponse 2) }

/-- R99, R153: the decoder never rounds: its binary64 word denotes exactly the value of the operand, and is the only one that does. -/
def Obligations.DecodeIsExact : Prop :=
  ∀ F ∈ catalog, ∀ w, w < 2 ^ F.T → Exact.val F w ≠ .nan →
    Exact.val fp64 (enc fp64 (val F w)) = Exact.val F w ∧
    ∀ d, d < 2 ^ 64 → Exact.val fp64 d = Exact.val F w → d = enc fp64 (val F w)

/-- R152: every NaN word decodes to one binary64 NaN word. -/
def Obligations.DecodeNaNIsCanonical : Prop :=
  ∀ (s : State) (f : Format), s.request.aLen.toNat = (specOf f).T → s.request.aWord.toNat < 2 ^ (specOf f).T →
    Exact.val (specOf f) s.request.aWord.toNat = .nan →
    exec (Instr.ofParts .decode f) s = .next { s with response := some (Exact.wordResponse 0x7FF8000000000000 64) }

/-- R154: the decoder's word built directly from the fields. -/
def Obligations.DecodeBitByBit : Prop :=
  ∀ F ∈ catalog, F ≠ fp64 → ∀ w, w < 2 ^ F.T → enc fp64 (val F w) = Exact.decodeBits F w

/-- R101: ENCODE.fp64 and DECODE.fp64 return their operand, and one NaN word for every NaN word. -/
def Obligations.Binary64CommandsAreIdentity : Prop :=
  ∀ s : State,
    let r := Exact.wordResponse
      (if Exact.val fp64 s.request.aWord.toNat = .nan then 0x7FF8000000000000 else s.request.aWord.toNat) 64
    exec .encodeFp64 s = .next { s with response := some r } ∧
    (s.request.aLen = 64 → exec .decodeFp64 s = .next { s with response := some r })

/-- R157 (a): DECODE then ENCODE in the same format is the identity on words that are not NaN, the NaN word of R121 on the others. -/
def Obligations.DecodeThenEncodeIsIdentity : Prop :=
  ∀ (s : State) (f : Format), s.request.aLen.toNat = (specOf f).T → s.request.aWord.toNat < 2 ^ (specOf f).T →
    ∃ d : Response, d.status = 0 ∧ exec (Instr.ofParts .decode f) s = .next { s with response := some d } ∧
      let s' := { s with request := { s.request with aWord := d.rWord, aLen := d.rLen } }
      exec (Instr.ofParts .encode f) s' = .next
        { s' with response := some (Exact.wordResponse
              (if Exact.val (specOf f) s.request.aWord.toNat = .nan then
                pack (specOf f) false (ones (specOf f).E) (2 ^ ((specOf f).M - 1))
              else s.request.aWord.toNat) (specOf f).T) }

/-- R157 (b), (c): ENCODE then DECODE in the same format returns an operand whose value is a value of the format, and one NaN word
for a NaN operand. The result of ENCODE is forwarded with its tag (R71). -/
def Obligations.EncodeThenDecodeReturnsFormatValues : Prop :=
  ∀ (s : State) (f : Format),
    ∃ e : Response, e.status = 0 ∧ exec (Instr.ofParts .encode f) s = .next { s with response := some e } ∧
      let s' := { s with request := { s.request with aWord := e.rWord, aLen := e.rLen } }
      ∃ d : Response, d.status = 0 ∧ d.rLen = 64 ∧
        exec (Instr.ofParts .decode f) s' = .next { s' with response := some d } ∧
        (∀ w, w < 2 ^ (specOf f).T → Exact.val fp64 s.request.aWord.toNat = Exact.val (specOf f) w →
          Exact.val (specOf f) w ≠ .nan → d.rWord = s.request.aWord) ∧
        (Exact.val fp64 s.request.aWord.toNat = .nan → d.rWord = 0x7FF8000000000000)

/-! ### BREAKDOWN -/

/-- R170: each BREAKDOWN command answers the three fields of a well-formed operand and the lengths of two of
them, and raises on any other operand. -/
def Obligations.BreakdownAnswersFields : Prop :=
  ∀ s : State,
    let n := s.request.aLen.toNat
    let w := s.request.aWord.toNat
    (n = 32 → w < 2 ^ 32 → exec .breakdownFp32 s = .next
      { s with response := some (Exact.fieldsResponse (w / 2 ^ 31 % 2) (w / 2 ^ 23 % 2 ^ 8) 8 (w % 2 ^ 23) 23) }) ∧
    (n = 64 → exec .breakdownFp64 s = .next
      { s with response := some (Exact.fieldsResponse (w / 2 ^ 63 % 2) (w / 2 ^ 52 % 2 ^ 11) 11 (w % 2 ^ 52) 52) }) ∧
    (n = 16 → w < 2 ^ 16 → exec .breakdownFp16 s = .next
      { s with response := some (Exact.fieldsResponse (w / 2 ^ 15 % 2) (w / 2 ^ 10 % 2 ^ 5) 5 (w % 2 ^ 10) 10) }) ∧
    (n = 16 → w < 2 ^ 16 → exec .breakdownBf16 s = .next
      { s with response := some (Exact.fieldsResponse (w / 2 ^ 15 % 2) (w / 2 ^ 7 % 2 ^ 8) 8 (w % 2 ^ 7) 7) }) ∧
    (n = 8 → w < 2 ^ 8 → exec .breakdownFp8e4m3 s = .next
      { s with response := some (Exact.fieldsResponse (w / 2 ^ 7 % 2) (w / 2 ^ 3 % 2 ^ 4) 4 (w % 2 ^ 3) 3) }) ∧
    (n = 4 → w < 2 ^ 4 → exec .breakdownNvfp4e2m1 s = .next
      { s with response := some (Exact.fieldsResponse (w / 2 ^ 3 % 2) (w / 2 % 2 ^ 2) 2 (w % 2) 1) }) ∧
    ∀ i ∈ [Instr.breakdownFp32, .breakdownFp64, .breakdownFp16, .breakdownBf16, .breakdownFp8e4m3, .breakdownNvfp4e2m1],
      n ≠ (specOf i.format).T ∨ 2 ^ (specOf i.format).T ≤ w → exec i s = .next { s with response := some (Exact.errorResponse 2) }

/-- R170: the three fields together are the whole word. -/
def Obligations.BreakdownFieldsAreWholeWord : Prop :=
  ∀ (s : State) (f : Format), s.request.aLen.toNat = (specOf f).T → s.request.aWord.toNat < 2 ^ (specOf f).T →
    ∃ r : Response, exec (Instr.ofParts .breakdown f) s = .next { s with response := some r } ∧ r.status = 0 ∧
      s.request.aWord.toNat =
        r.fSign.toNat * 2 ^ ((specOf f).E + (specOf f).M) + r.fExp.toNat * 2 ^ (specOf f).M + r.fMan.toNat ∧
      r.fExplen.toNat = (specOf f).E ∧ r.fManlen.toNat = (specOf f).M

/-- R174: BREAKDOWN agrees with DECODE's fields, and with what ENCODE packed: the fields of a forwarded ENCODE result (R71) make up its
word, and classify it as R96 does. -/
def Obligations.BreakdownAgreesWithEncodeAndDecode : Prop :=
  (∀ (s : State) (f : Format) (r : Response), exec (Instr.ofParts .breakdown f) s = .next { s with response := some r } →
    r.status = 0 →
    r.fSign = BitVec.ofBool (split (specOf f) s.request.aWord.toNat).sign ∧
    r.fExp.toNat = (split (specOf f) s.request.aWord.toNat).expf ∧
    r.fMan.toNat = (split (specOf f) s.request.aWord.toNat).manf) ∧
  ∀ (s : State) (f : Format),
    ∃ e : Response, exec (Instr.ofParts .encode f) s = .next { s with response := some e } ∧
      let s' := { s with request := { s.request with aWord := e.rWord, aLen := e.rLen } }
      ∃ r : Response, exec (Instr.ofParts .breakdown f) s' = .next { s' with response := some r } ∧ r.status = 0 ∧
        e.rWord.toNat = pack (specOf f) (r.fSign == 1) r.fExp.toNat r.fMan.toNat

/-! ### Runs -/

/-- R25, R26, R193: every response a step delivers is well formed; an invariant of every step (that the host keeps a list of the
responses delivered is the model's choice, log 4). -/
def Obligations.StepKeepsResponsesWellFormed : Prop :=
  ∀ s t : State, s.inv → step s = .next t → t.inv

/-- The invariant holds after reset (the reset values are the model's choice, logs 2, 3 and 4). -/
def Obligations.ResetStateMeetsInvariant : Prop := State.reset.inv

/-- R30, R210: reset leaves no response and nothing lined up; it changes nothing a transaction can observe: any request presented
after it is answered as in any other state (the values of the ports are the model's choice, logs 2, 3 and 4). -/
def Obligations.ResetIsNotObservable : Prop :=
  State.reset.response = none ∧ State.reset.pending = [] ∧ State.reset.delivered = [] ∧
  ∀ (s : State) (r : Request), ∃ x : Response,
    transaction { s with request := r } = .next { s with request := r, response := some x } ∧
    transaction { State.reset with request := r } = .next { State.reset with request := r, response := some x }

/-- R43, R194: presenting a request twice gives the same response twice; an error too is given again. That the host leaves the request
on the ports after a step when it has nothing lined up (`t.request`, `u.request`) is the model's choice (log 4), not R43's or R194's. -/
def Obligations.RepeatedRequestGetsSameResponse : Prop :=
  ∀ s : State, s.pending = [] →
    ∃ t u : State, step s = .next t ∧ step t = .next u ∧ t.request = s.request ∧ u.request = s.request ∧
      u.response = t.response ∧ t.response = some (Exact.transact s.request)

/-- R46: requests presented one after another are each answered by `transact` of the request, in whatever order they come and
whatever the state they start from (the two lists are the host's, log 4). -/
def Obligations.RunAnswersEachRequest : Prop :=
  ∀ (s : State) (r : Request) (rest : List Request),
    ∃ t : State, Sys2Proof.core.run (rest.length + 1) (s.load r rest) = .next t ∧
      t.delivered = s.delivered ++ (r :: rest).map Exact.transact ∧ t.pending = [] ∧
      t.request = (r :: rest).getLast (List.cons_ne_nil r rest) ∧ t.response = t.delivered.getLast?

/-- R70, R71, R215: a program whose literals have the digits R70 asks and whose names are bound by earlier lines runs to its end from
reset, one response a line, each the answer to the request its line presents. The model's choices in it: the host's lists (log 4), the length tag 64 of an ENCODE literal and raw
requests as lines (log 13), and that a name bound to an errored response forwards its zeros (log 16). -/
def Obligations.ProgramRunsToItsEnd : Prop :=
  ∀ ls : List Line, Line.allWellFormed [] ls = true →
    ∃ rs : List Response, programResponses ls = some rs ∧ rs.length = ls.length ∧
      ∀ (n : Nat) (l : Line), ls[n]? = some l →
        ∃ q : Request, lineRequest (rs.take n) l = some q ∧ rs[n]? = some (Exact.transact q)
end

