-- ==== Sys2Proof/Laws/Decode.lean ====
section
/-! SUPPORT. The command word: the two fields of `op ‖ fmt`, and what the decoder answers on them. -/
namespace Sys2Proof

@[simp] theorem opField_append (op : BitVec 2) (fmt : BitVec 3) : opField (op ++ fmt) = op := by
  revert op fmt; decide

@[simp] theorem fmtField_append (op : BitVec 2) (fmt : BitVec 3) : fmtField (op ++ fmt) = fmt := by
  revert op fmt; decide

theorem append_fields (c : BitVec 5) : opField c ++ fmtField c = c := by
  revert c; decide

theorem operationOf_cases (op : BitVec 2) :
    (op = 3 ∧ operationOf op = none) ∨ ∃ o : Operation, op = o.code ∧ operationOf op = some o := by
  have : ∀ op : BitVec 2, op = 3 ∨ op = 0 ∨ op = 1 ∨ op = 2 := by decide
  rcases this op with rfl | rfl | rfl | rfl
  · exact .inl ⟨rfl, rfl⟩
  · exact .inr ⟨.encode, rfl, rfl⟩
  · exact .inr ⟨.decode, rfl, rfl⟩
  · exact .inr ⟨.breakdown, rfl, rfl⟩

theorem formatOf_cases (fmt : BitVec 3) :
    (6 ≤ fmt.toNat ∧ formatOf fmt = none) ∨ ∃ f : Format, fmt = f.code ∧ formatOf fmt = some f := by
  have : ∀ fmt : BitVec 3, 6 ≤ fmt.toNat ∧ formatOf fmt = none ∨
      fmt = 0 ∨ fmt = 1 ∨ fmt = 2 ∨ fmt = 3 ∨ fmt = 4 ∨ fmt = 5 := by decide
  rcases this fmt with h | rfl | rfl | rfl | rfl | rfl | rfl
  · exact .inl h
  · exact .inr ⟨.fp32, rfl, rfl⟩
  · exact .inr ⟨.fp64, rfl, rfl⟩
  · exact .inr ⟨.fp16, rfl, rfl⟩
  · exact .inr ⟨.bf16, rfl, rfl⟩
  · exact .inr ⟨.fp8e4m3, rfl, rfl⟩
  · exact .inr ⟨.nvfp4e2m1, rfl, rfl⟩

@[simp] theorem operationOf_code (o : Operation) : operationOf o.code = some o := by cases o <;> rfl

@[simp] theorem formatOf_code (f : Format) : formatOf f.code = some f := by cases f <;> rfl

/-- Everything the decoder can answer (R67): the rejection of a reserved operation, that of a reserved format, or the command of
the two codes. -/
theorem decode_cases (op : BitVec 2) (fmt : BitVec 3) :
    (op = 3 ∧ decode (op ++ fmt) = .rejected .reservedOperation) ∨
    (op ≠ 3 ∧ 6 ≤ fmt.toNat ∧ decode (op ++ fmt) = .rejected .reservedFormat) ∨
    ∃ (o : Operation) (f : Format), op = o.code ∧ fmt = f.code ∧ decode (op ++ fmt) = .command (Instr.ofParts o f) := by
  rcases operationOf_cases op with ⟨h, ho⟩ | ⟨o, h, ho⟩
  · exact .inl ⟨h, by simp [decode, ho]⟩
  · rcases formatOf_cases fmt with ⟨h', hf⟩ | ⟨f, h', hf⟩
    · exact .inr (.inl ⟨by subst h; cases o <;> decide, h', by simp [decode, ho, hf]⟩)
    · exact .inr (.inr ⟨o, f, h, h', by simp [decode, ho, hf]⟩)

theorem ofParts_parts (i : Instr) : Instr.ofParts i.operation i.format = i := by cases i <;> rfl

@[simp] theorem operation_ofParts (o : Operation) (f : Format) : (Instr.ofParts o f).operation = o := by
  cases o <;> cases f <;> rfl

@[simp] theorem format_ofParts (o : Operation) (f : Format) : (Instr.ofParts o f).format = f := by
  cases o <;> cases f <;> rfl

end Sys2Proof
end

