-- ==== Sys2Proof/Laws/State.lean ====
section
/-! SUPPORT. One lemma per field per named update of the state. -/
namespace Sys2Proof.Machine

variable (s : State) (r : Request) (rest : List Request) (c : BitVec 5) (nbits w : Nat)

@[simp] theorem State.hostTurn_request : s.hostTurn.request = s.pending.headD s.request := rfl
@[simp] theorem State.hostTurn_response : s.hostTurn.response = s.response := rfl
@[simp] theorem State.hostTurn_pending : s.hostTurn.pending = s.pending.tail := rfl
@[simp] theorem State.hostTurn_delivered : s.hostTurn.delivered = s.delivered ++ s.response.toList := rfl

@[simp] theorem State.load_request : (s.load r rest).request = r := rfl
@[simp] theorem State.load_response : (s.load r rest).response = s.response := rfl
@[simp] theorem State.load_pending : (s.load r rest).pending = rest := rfl
@[simp] theorem State.load_delivered : (s.load r rest).delivered = s.delivered := rfl

@[simp] theorem Request.withCommand_op : (r.withCommand c).op = opField c := rfl
@[simp] theorem Request.withCommand_fmt : (r.withCommand c).fmt = fmtField c := rfl
@[simp] theorem Request.withCommand_aWord : (r.withCommand c).aWord = r.aWord := rfl
@[simp] theorem Request.withCommand_aLen : (r.withCommand c).aLen = r.aLen := rfl

@[simp] theorem State.withFetchWord_request :
    (s.withFetchWord nbits w).request = s.request.withCommand (commandOfTableWord nbits w) := rfl
@[simp] theorem State.withFetchWord_response : (s.withFetchWord nbits w).response = s.response := rfl
@[simp] theorem State.withFetchWord_pending : (s.withFetchWord nbits w).pending = s.pending := rfl
@[simp] theorem State.withFetchWord_delivered : (s.withFetchWord nbits w).delivered = s.delivered := rfl

end Sys2Proof.Machine
end

