-- ==== Sys2Proof/Laws/Ops.lean ====
section
/-! SUPPORT. What each shared operation, `exec`, a transaction and a step can do, said once. -/
namespace Sys2Proof.Machine

theorem respond_next {a : Answer} {s t : State} (h : respond a s = .next t) : t = { s with response := some a.onPorts } := by
  cases h; rfl

/-- The answer of an operation over a FormatSpec. -/
def answerOf : Operation → FormatSpec → Request → Answer
  | .encode => encodeAnswer
  | .decode => decodeAnswer
  | .breakdown => breakdownAnswer

/-- Every command does the same three things: it reads the request, computes its operation's answer at its format, and drives it
on the output ports. -/
theorem exec_eq_respond (i : Instr) (s : State) : exec i s = respond (answerOf i.operation (specOf i.format) s.request) s := by
  cases i <;> rfl

theorem fmtSpec_code (f : Format) : fmtSpec f.code = some (specOf f) := by cases f <;> rfl

theorem specOf_valid (f : Format) : (specOf f).valid = true := by cases f <;> rfl

theorem specOf_mem (f : Format) : specOf f ∈ catalog := by cases f <;> decide

/-- Membership in the catalog is being the FormatSpec of one of the six formats (R92). -/
theorem mem_catalog {F : FormatSpec} (h : F ∈ catalog) : ∃ f, F = specOf f := by
  simp only [catalog, Config.extraFormats, List.append_nil, List.mem_cons, List.not_mem_nil, or_false] at h
  rcases h with rfl | rfl | rfl | rfl | rfl | rfl
  · exact ⟨.fp32, rfl⟩
  · exact ⟨.fp64, rfl⟩
  · exact ⟨.fp16, rfl⟩
  · exact ⟨.bf16, rfl⟩
  · exact ⟨.fp8e4m3, rfl⟩
  · exact ⟨.nvfp4e2m1, rfl⟩

/-- The answer of a transaction on any request. -/
def answer (r : Request) : Answer :=
  match decode (r.op ++ r.fmt) with
  | .command i => answerOf i.operation (specOf i.format) r
  | .rejected e => .raised (errorOfReject e)

/-- A transaction answers its request on the output ports and changes nothing else (R31, R43). -/
theorem transaction_eq_respond (s : State) : transaction s = respond (answer s.request) s := by
  unfold transaction answer State.command
  cases decode (s.request.op ++ s.request.fmt) with
  | command i => exact exec_eq_respond i s
  | rejected e => rfl

/-- A step's next state, field by field. -/
theorem step_eq (s : State) :
    step s = .next
      { request := s.pending.headD s.request
        response := some (answer s.request).onPorts
        pending := s.pending.tail
        delivered := s.delivered ++ [(answer s.request).onPorts] } := by
  rw [step, transaction_eq_respond]
  rfl

theorem wellFormedFor_iff {F : FormatSpec} {w : Word} {len : Len} :
    wellFormedFor F w len = true ↔ len.toNat = F.T ∧ w.toNat < 2 ^ F.T := by
  simp [wellFormedFor]

theorem wellFormedFor_eq_false_iff {F : FormatSpec} {w : Word} {len : Len} :
    wellFormedFor F w len = false ↔ len.toNat ≠ F.T ∨ 2 ^ F.T ≤ w.toNat := by
  rw [Bool.eq_false_iff, Ne, wellFormedFor_iff]
  omega

/-- DECODE's answer on a well-formed BitString (R155). -/
theorem decodeAnswer_of_wellFormed {F : FormatSpec} {r : Request} (h : wellFormedFor F r.aWord r.aLen = true) :
    decodeAnswer F r = .word (BitVec.ofNat 64 (enc fp64 (val F r.aWord.toNat))) 64 := if_pos h

/-- DECODE's answer on any other (R150). -/
theorem decodeAnswer_of_malformed {F : FormatSpec} {r : Request} (h : wellFormedFor F r.aWord r.aLen = false) :
    decodeAnswer F r = .raised .malformedInputError := if_neg (by rw [h]; exact Bool.false_ne_true)

/-- BREAKDOWN's answer on a well-formed BitString (R170). -/
theorem breakdownAnswer_of_wellFormed {F : FormatSpec} {r : Request} (h : wellFormedFor F r.aWord r.aLen = true) :
    breakdownAnswer F r =
      .fields (BitVec.ofBool (split F r.aWord.toNat).sign) (BitVec.ofNat 11 (split F r.aWord.toNat).expf) (BitVec.ofNat 4 F.E)
        (BitVec.ofNat 52 (split F r.aWord.toNat).manf) (BitVec.ofNat 6 F.M) := if_pos h

/-- BREAKDOWN's answer on any other (R172). -/
theorem breakdownAnswer_of_malformed {F : FormatSpec} {r : Request} (h : wellFormedFor F r.aWord r.aLen = false) :
    breakdownAnswer F r = .raised .malformedInputError := if_neg (by rw [h]; exact Bool.false_ne_true)

end Sys2Proof.Machine
end

