-- ==== Sys2Proof/Laws/PerInstr.lean ====
section
/-! SUPPORT. The command word of every command: `CMD = op * 8 + fmt`, with `op` in 0 to 2 and `fmt` in 0 to 5 (R60, R67). -/
namespace Sys2Proof.Laws.CommandWord

/-- The value of a command's word and the ranges of its two codes. -/
def Statement (i : Instr) : Prop :=
  (encode i).toNat = i.operation.code.toNat * 8 + i.format.code.toNat ∧ i.operation.code.toNat ≤ 2 ∧ i.format.code.toNat ≤ 5

theorem encodeFp32 : Statement .encodeFp32 := by unfold Statement; decide
theorem encodeFp64 : Statement .encodeFp64 := by unfold Statement; decide
theorem encodeFp16 : Statement .encodeFp16 := by unfold Statement; decide
theorem encodeBf16 : Statement .encodeBf16 := by unfold Statement; decide
theorem encodeFp8e4m3 : Statement .encodeFp8e4m3 := by unfold Statement; decide
theorem encodeNvfp4e2m1 : Statement .encodeNvfp4e2m1 := by unfold Statement; decide
theorem decodeFp32 : Statement .decodeFp32 := by unfold Statement; decide
theorem decodeFp64 : Statement .decodeFp64 := by unfold Statement; decide
theorem decodeFp16 : Statement .decodeFp16 := by unfold Statement; decide
theorem decodeBf16 : Statement .decodeBf16 := by unfold Statement; decide
theorem decodeFp8e4m3 : Statement .decodeFp8e4m3 := by unfold Statement; decide
theorem decodeNvfp4e2m1 : Statement .decodeNvfp4e2m1 := by unfold Statement; decide
theorem breakdownFp32 : Statement .breakdownFp32 := by unfold Statement; decide
theorem breakdownFp64 : Statement .breakdownFp64 := by unfold Statement; decide
theorem breakdownFp16 : Statement .breakdownFp16 := by unfold Statement; decide
theorem breakdownBf16 : Statement .breakdownBf16 := by unfold Statement; decide
theorem breakdownFp8e4m3 : Statement .breakdownFp8e4m3 := by unfold Statement; decide
theorem breakdownNvfp4e2m1 : Statement .breakdownNvfp4e2m1 := by unfold Statement; decide

end Sys2Proof.Laws.CommandWord
end

