-- ==== Sys2Proof/Laws/Run.lean ====
section
/-! SUPPORT. Runs of the machine, one step at a time. -/
namespace Sys2Proof.Machine

theorem run_zero (s : State) : Sys2Proof.core.run 0 s = .next s := rfl

/-- A run of one step more is the step and then the run. -/
theorem run_succ_of_step {s t : State} (h : step s = .next t) (k : Nat) : Sys2Proof.core.run (k + 1) s = Sys2Proof.core.run k t := by
  have h' : Sys2Proof.core.step s = .next t := h
  simp only [Host.Core.run, h']

/-- Every length tag R70 implies is a whole number of hexadecimal digits. -/
theorem impliedLen_digits : ∀ (op : BitVec 2) (fmt : BitVec 3) (len : Len),
    impliedLen op fmt = some len → 4 * ((len.toNat + 3) / 4) = len.toNat := by decide

/-- A literal written as R70 asks presents its word, below `2^len`, with the implied length tag. -/
theorem literal_request {before : List Line} {answers : List Response} {op : BitVec 2} {fmt : BitVec 3} {digits : Nat} {w : Word}
    (h : Line.wellFormed before ⟨op, fmt, .literal digits w⟩ = true) :
    ∃ len, impliedLen op fmt = some len ∧ w.toNat < 2 ^ len.toNat ∧
      lineRequest answers ⟨op, fmt, .literal digits w⟩ = some { op := op, fmt := fmt, aWord := w, aLen := len } := by
  cases hl : impliedLen op fmt with
  | none => simp [Line.wellFormed, hl] at h
  | some len =>
    have hw : literalWritten len digits w = true := by simpa [Line.wellFormed, hl] using h
    refine ⟨len, rfl, ?_, by simp [lineRequest, hl, hw]⟩
    simp only [literalWritten, Bool.and_eq_true, decide_eq_true_eq] at hw
    rw [← impliedLen_digits op fmt len hl, pow_mul, ← hw.1]
    exact hw.2

end Sys2Proof.Machine
end

