-- ==== Sys2Proof/Laws/Value.lean ====
section
/-! SUPPORT. The arithmetic of Machine/Value.lean (naturals and integers) computes the rules' formulas of Machine/Exact.lean
(rationals): one lemma per function. -/
namespace Sys2Proof.Machine

theorem two_zpow_pos (i : ℤ) : (0 : ℚ) < 2 ^ i := zpow_pos two_pos i

theorem toRat_scale (a : Magnitude) (i : ℤ) : (a.scale i).toRat = a.toRat * 2 ^ i := by
  simp only [Magnitude.toRat, Magnitude.scale, mul_assoc, zpow_add₀ (two_ne_zero' ℚ)]

theorem toRat_pos {a : Magnitude} (h : 0 < a.k) : 0 < a.toRat :=
  mul_pos (by exact_mod_cast h) (two_zpow_pos _)

theorem toRat_nonneg (a : Magnitude) : 0 ≤ a.toRat :=
  mul_nonneg (Nat.cast_nonneg _) (two_zpow_pos _).le

/-- The exponent of a positive rational is fixed by its two bounds (R11). -/
theorem log_eq_of_bounds {a : ℚ} {e : ℤ} (hlo : 2 ^ e ≤ a) (hhi : a < 2 ^ (e + 1)) : Int.log 2 a = e := by
  have ha : 0 < a := (two_zpow_pos e).trans_le hlo
  have h1 : e ≤ Int.log 2 a := (Int.zpow_le_iff_le_log one_lt_two ha).1 (by exact_mod_cast hlo)
  have h2 : Int.log 2 a < e + 1 := (Int.lt_zpow_iff_log_lt one_lt_two ha).1 (by exact_mod_cast hhi)
  omega

theorem log_bounds {a : ℚ} (ha : 0 < a) : 2 ^ Int.log 2 a ≤ a ∧ a < 2 ^ (Int.log 2 a + 1) :=
  ⟨by exact_mod_cast Int.zpow_log_le_self one_lt_two ha, by exact_mod_cast Int.lt_zpow_succ_log_self one_lt_two a⟩

theorem flog2_eq_log {a : Magnitude} (h : 0 < a.k) : flog2 a = Int.log 2 a.toRat := by
  have hlo : ((2 : ℚ) ^ Nat.log2 a.k) ≤ a.k := by exact_mod_cast Nat.log2_self_le (by omega)
  have hhi : (a.k : ℚ) < 2 ^ (Nat.log2 a.k + 1) := by exact_mod_cast Nat.lt_log2_self
  refine (log_eq_of_bounds ?_ ?_).symm
  · rw [flog2, zpow_add₀ (two_ne_zero' ℚ), zpow_natCast]
    exact mul_le_mul_of_nonneg_right hlo (two_zpow_pos _).le
  · rw [flog2, add_right_comm, zpow_add₀ (two_ne_zero' ℚ), ← Nat.cast_succ, zpow_natCast]
    exact mul_lt_mul_of_pos_right hhi (two_zpow_pos _)

theorem toRat_fraction {a : Magnitude} (h : 0 < a.k) : (fraction a).toRat = a.toRat / 2 ^ flog2 a - 1 := by
  have hlo : 2 ^ Nat.log2 a.k ≤ a.k := Nat.log2_self_le (by omega)
  have hn : (2 : ℚ) ^ Nat.log2 a.k ≠ 0 := by positivity
  have hj := (two_zpow_pos a.j).ne'
  simp only [Magnitude.toRat, fraction, flog2, zpow_neg, zpow_add₀ (two_ne_zero' ℚ), zpow_natCast, Nat.cast_sub hlo,
    Nat.cast_pow, Nat.cast_ofNat]
  field_simp

/-- Rounding by shifts is `floor(y + 1/2)` (R11, R126). -/
theorem rhaz_eq_exact (y : Magnitude) : rhaz y = Exact.rhaz y.toRat := by
  obtain ⟨k, n | n⟩ := y
  · have : Magnitude.toRat ⟨k, .ofNat n⟩ = ((k * 2 ^ n : ℕ) : ℚ) := by
      simp [Magnitude.toRat]
    rw [Exact.rhaz, this, add_comm, Nat.floor_add_natCast (by norm_num)]
    norm_num [rhaz, Nat.shiftLeft_eq]
  · have : Magnitude.toRat ⟨k, .negSucc n⟩ + 1 / 2 = ((k + 2 ^ n : ℕ) : ℚ) / ((2 ^ n * 2 : ℕ) : ℚ) := by
      simp only [Magnitude.toRat, zpow_negSucc, pow_succ]
      push_cast
      field_simp
    rw [Exact.rhaz, this, Nat.floor_div_eq_div]
    simp only [rhaz, Nat.shiftRight_eq_div_pow]
    rw [← Nat.div_div_eq_div_mul, Nat.add_div_right _ (by positivity)]

/-- `finish` is the carry and the saturation of R120, spelled as R127 and R128 (c) spell it. -/
theorem finish_eq (F : FormatSpec) (s : Bool) (ef q : Nat) :
    finish F s ef q =
      if q = 2 ^ F.M then if ones F.E ≤ ef + 1 then pack F s (ones F.E) 0 else pack F s (ef + 1) 0
      else if ones F.E ≤ ef then pack F s (ones F.E) 0 else pack F s ef q := by
  by_cases h : q = 2 ^ F.M <;> simp [finish, h]

theorem one_le_ones {n : Nat} (h : 1 ≤ n) : 1 ≤ ones n := by
  have : 2 ^ 1 ≤ 2 ^ n := Nat.pow_le_pow_right two_pos h
  unfold ones
  omega

theorem encFinite_eq_exact {F : FormatSpec} (hF : F.valid = true) (s : Bool) {a : Magnitude} (h : 0 < a.k) :
    encFinite F s a = Exact.encFinite F s a.toRat := by
  have hE : 1 ≤ ones F.E := one_le_ones (by simp only [FormatSpec.valid, Bool.and_eq_true, decide_eq_true_eq] at hF; omega)
  simp only [encFinite, Exact.encFinite, finish_eq, rhaz_eq_exact, toRat_scale, toRat_fraction h, flog2_eq_log h, zpow_natCast]
  split
  · split
    · rfl
    · rw [if_neg (by omega)]
  · split
    · rfl
    · rename_i h1 h2
      have hb : (Int.log 2 a.toRat + F.B + 1).toNat = (Int.log 2 a.toRat + F.B).toNat + 1 := by omega
      rw [hb]
      split
      · congr 1
        simp only [eq_iff_iff]
        omega
      · rw [if_neg (by omega)]

/-- A magnitude of R10: `a > 0`. -/
def XReal.positive : XReal Magnitude → Prop
  | .nan => True
  | .inf _ => True
  | .zero _ => True
  | .fin _ a => 0 < a.k

theorem enc_eq_exact {F : FormatSpec} (hF : F.valid = true) {x : XReal Magnitude} (hx : x.positive) :
    enc F x = Exact.enc F (x.map Magnitude.toRat) := by
  cases x with
  | nan => rfl
  | inf s => rfl
  | zero s => rfl
  | fin s a => exact encFinite_eq_exact hF s hx

theorem val_positive (F : FormatSpec) (w : Nat) : (val F w).positive := by
  unfold val
  dsimp only
  split
  · split <;> trivial
  · split
    · split
      · trivial
      · rename_i h
        exact Nat.pos_of_ne_zero h
    · exact Nat.add_pos_left (Nat.two_pow_pos _) _

theorem val_eq_exact (F : FormatSpec) (w : Nat) : (val F w).map Magnitude.toRat = Exact.val F w := by
  unfold val Exact.val
  dsimp only
  split
  · split <;> rfl
  · split
    · split
      · rfl
      · simp only [XReal.map, Magnitude.toRat]
        congr 3
        ring
    · simp only [XReal.map, Magnitude.toRat]
      congr 1
      rw [sub_eq_add_neg, zpow_add₀ (two_ne_zero' ℚ), zpow_neg, zpow_natCast]
      push_cast
      have : (2 : ℚ) ^ F.M ≠ 0 := by positivity
      field_simp

/-- ENCODE's word is the rules' word of the operand's value (R130). -/
theorem enc_val_eq_exact {F : FormatSpec} (hF : F.valid = true) (G : FormatSpec) (w : Nat) :
    enc F (val G w) = Exact.enc F (Exact.val G w) := by
  rw [enc_eq_exact hF (val_positive G w), val_eq_exact]

end Sys2Proof.Machine
end

