-- ==== Sys2Proof/Tests/Slice0.lean ====
section
/-! SUPPORT. The model's own tests: the well-formedness checks refuse ill-formed terms, command words written out from R61 and R62
decode, one step on vectors of 95_test_vectors.md, and a witness for the hypotheses of each statement. -/
namespace Sys2Proof.Tests
open Sys2Proof Sys2Proof.Machine

/-! ### The checks refuse ill-formed terms -/

theorem test_valid_refuses_no_mantissa : FormatSpec.valid ⟨3, 1, 2, 0, 1⟩ = false := by decide
theorem test_valid_refuses_no_exponent : FormatSpec.valid ⟨3, 1, 0, 2, 1⟩ = false := by decide
theorem test_valid_refuses_no_sign : FormatSpec.valid ⟨3, 0, 1, 2, 1⟩ = false := by decide
theorem test_valid_refuses_wrong_total : FormatSpec.valid ⟨33, 1, 8, 23, 127⟩ = false := by decide
theorem test_valid_leaves_bias_free : FormatSpec.valid ⟨32, 1, 8, 23, -5⟩ = true := by decide
theorem test_line_refuses_literal_for_reserved_operation : Line.wellFormed [] ⟨3, 0, .literal 1 0⟩ = false := by decide
theorem test_line_refuses_literal_for_reserved_format : Line.wellFormed [] ⟨0, 6, .literal 16 0⟩ = false := by decide
theorem test_line_refuses_wide_literal : Line.wellFormed [] ⟨1, 2, .literal 5 0x13C00⟩ = false := by decide
theorem test_line_refuses_short_literal : Line.wellFormed [] ⟨1, 2, .literal 3 0x3C0⟩ = false := by decide
theorem test_line_refuses_word_beyond_its_digits : Line.wellFormed [] ⟨1, 2, .literal 4 0x13C00⟩ = false := by decide
theorem test_wide_literal_presents_nothing : lineRequest [] ⟨1, 2, .literal 5 0x13C00⟩ = none := by decide
theorem test_line_refuses_unbound_name : Line.wellFormed [⟨0, 2, .literal 16 0⟩] ⟨1, 2, .result 1⟩ = false := by decide
theorem test_line_refuses_name_of_wrong_kind : Line.wellFormed [⟨0, 2, .literal 16 0⟩] ⟨0, 2, .result 0⟩ = false := by decide
theorem test_line_refuses_name_of_reserved_command : Line.wellFormed [⟨0, 6, .tagged 0 0⟩] ⟨1, 2, .result 0⟩ = false := by decide
theorem test_line_refuses_name_for_reserved_format : Line.wellFormed [⟨0, 2, .literal 16 0⟩] ⟨1, 6, .result 0⟩ = false := by decide
theorem test_lines_refuse_a_later_name : Line.allWellFormed [] [⟨0, 2, .literal 16 0⟩, ⟨1, 2, .result 1⟩] = false := by decide
theorem test_bitstring_refuses_wrong_length : wellFormedFor fp16 0x3C00 15 = false := by decide
theorem test_bitstring_refuses_high_bit : wellFormedFor fp16 0x13C00 16 = false := by decide

/-! ### Command words, bit by bit (R60, R61, R62) -/

theorem test_word_encode_fp32 : decode 0b00000#5 = .command .encodeFp32 := by decide
theorem test_word_encode_fp64 : decode 0b00001#5 = .command .encodeFp64 := by decide
theorem test_word_encode_fp16 : decode 0b00010#5 = .command .encodeFp16 := by decide
theorem test_word_encode_bf16 : decode 0b00011#5 = .command .encodeBf16 := by decide
theorem test_word_encode_fp8e4m3 : decode 0b00100#5 = .command .encodeFp8e4m3 := by decide
theorem test_word_encode_nvfp4e2m1 : decode 0b00101#5 = .command .encodeNvfp4e2m1 := by decide
theorem test_word_decode_fp32 : decode 0b01000#5 = .command .decodeFp32 := by decide
theorem test_word_decode_fp64 : decode 0b01001#5 = .command .decodeFp64 := by decide
theorem test_word_decode_fp16 : decode 0b01010#5 = .command .decodeFp16 := by decide
theorem test_word_decode_bf16 : decode 0b01011#5 = .command .decodeBf16 := by decide
theorem test_word_decode_fp8e4m3 : decode 0b01100#5 = .command .decodeFp8e4m3 := by decide
theorem test_word_decode_nvfp4e2m1 : decode 0b01101#5 = .command .decodeNvfp4e2m1 := by decide
theorem test_word_breakdown_fp32 : decode 0b10000#5 = .command .breakdownFp32 := by decide
theorem test_word_breakdown_fp64 : decode 0b10001#5 = .command .breakdownFp64 := by decide
theorem test_word_breakdown_fp16 : decode 0b10010#5 = .command .breakdownFp16 := by decide
theorem test_word_breakdown_bf16 : decode 0b10011#5 = .command .breakdownBf16 := by decide
theorem test_word_breakdown_fp8e4m3 : decode 0b10100#5 = .command .breakdownFp8e4m3 := by decide
theorem test_word_breakdown_nvfp4e2m1 : decode 0b10101#5 = .command .breakdownNvfp4e2m1 := by decide
theorem test_word_reserved_format : decode 0b10110#5 = .rejected .reservedFormat := by decide
theorem test_word_reserved_operation_first : decode 0b11111#5 = .rejected .reservedOperation := by decide
theorem test_table_word : decodeTableWord 8 0x0A = some .decodeFp16 := by decide

/-! ### One step on vectors of 95_test_vectors.md -/

/-- A state that presents a request; nothing else. -/
def presenting (op : BitVec 2) (fmt : BitVec 3) (w : Word) (len : Len) : State :=
  State.reset.load { op := op, fmt := fmt, aWord := w, aLen := len } []

/-- The response of one step. -/
def stepResponse (s : State) : Option Response :=
  match step s with
  | .next t => t.response
  | .fault _ => none
  | .refused _ => none

/-- EA19. -/
theorem test_encode_fp32_normal_carry : stepResponse (presenting 0 0 0x3FFFFFFFF0000000 64) = some (Exact.wordResponse 0x40000000 32) := by decide
/-- EA32. -/
theorem test_encode_fp32_negative_subnormal_tie : stepResponse (presenting 0 0 0xB6A8000000000000 64) = some (Exact.wordResponse 0x80000002 32) := by decide
/-- EF11. -/
theorem test_encode_fp64_identity : stepResponse (presenting 0 1 0xBDDB7CDFD9D7BDBB 64) = some (Exact.wordResponse 0xBDDB7CDFD9D7BDBB 64) := by decide
/-- EF4. -/
theorem test_encode_fp64_signalling_nan : stepResponse (presenting 0 1 0x7FF0000000000001 64) = some (Exact.wordResponse 0x7FF8000000000000 64) := by decide
/-- EB16. -/
theorem test_encode_fp16_tie_to_odd : stepResponse (presenting 0 2 0x3FF0020000000000 64) = some (Exact.wordResponse 0x3C01 16) := by decide
/-- EB22. -/
theorem test_encode_fp16_carry_saturates : stepResponse (presenting 0 2 0x40EFFE0000000000 64) = some (Exact.wordResponse 0x7C00 16) := by decide
/-- EC23. -/
theorem test_encode_bf16_just_below_saturation : stepResponse (presenting 0 3 0x47EFEFFFFFFFFFFF 64) = some (Exact.wordResponse 0x7F7F 16) := by decide
/-- EC34. -/
theorem test_encode_bf16_underflow_keeps_sign : stepResponse (presenting 0 3 0x8000000000000001 64) = some (Exact.wordResponse 0x8000 16) := by decide
/-- ED14, the source example S6. -/
theorem test_encode_fp8e4m3_overflow : stepResponse (presenting 0 4 0x4202A05F20000000 64) = some (Exact.wordResponse 0x78 8) := by decide
/-- ED27. -/
theorem test_encode_fp8e4m3_subnormal_carry : stepResponse (presenting 0 4 0x3F8E000000000000 64) = some (Exact.wordResponse 0x08 8) := by decide
/-- EE11. -/
theorem test_encode_nvfp4e2m1_negative_tie : stepResponse (presenting 0 5 0xC004000000000000 64) = some (Exact.wordResponse 0xD 4) := by decide
/-- EE27. -/
theorem test_encode_nvfp4e2m1_subnormal_carry : stepResponse (presenting 0 5 0x3FE8000000000000 64) = some (Exact.wordResponse 0x2 4) := by decide
/-- DA5. -/
theorem test_decode_fp32_largest_subnormal : stepResponse (presenting 1 0 0x007FFFFF 32) = some (Exact.wordResponse 0x380FFFFFC0000000 64) := by decide
/-- DA16. -/
theorem test_decode_fp32_negative_nan : stepResponse (presenting 1 0 0xFF800001 32) = some (Exact.wordResponse 0x7FF8000000000000 64) := by decide
/-- DF4. -/
theorem test_decode_fp64_largest_subnormal : stepResponse (presenting 1 1 0x000FFFFFFFFFFFFF 64) = some (Exact.wordResponse 0x000FFFFFFFFFFFFF 64) := by decide
/-- DF12. -/
theorem test_decode_fp64_negative_nan : stepResponse (presenting 1 1 0xFFF0000000000001 64) = some (Exact.wordResponse 0x7FF8000000000000 64) := by decide
/-- DB18. -/
theorem test_decode_fp16_tenth : stepResponse (presenting 1 2 0x2E66 16) = some (Exact.wordResponse 0x3FB9980000000000 64) := by decide
/-- DB4. -/
theorem test_decode_fp16_negative_least_subnormal : stepResponse (presenting 1 2 0x8001 16) = some (Exact.wordResponse 0xBE70000000000000 64) := by decide
/-- DC21. -/
theorem test_decode_bf16_large : stepResponse (presenting 1 3 0x5015 16) = some (Exact.wordResponse 0x4202A00000000000 64) := by decide
/-- DC2. -/
theorem test_decode_bf16_negative_zero : stepResponse (presenting 1 3 0x8000 16) = some (Exact.wordResponse 0x8000000000000000 64) := by decide
/-- DD14. -/
theorem test_decode_fp8e4m3_negative_infinity : stepResponse (presenting 1 4 0xF8 8) = some (Exact.wordResponse 0xFFF0000000000000 64) := by decide
/-- DD11. -/
theorem test_decode_fp8e4m3_largest_finite : stepResponse (presenting 1 4 0x77 8) = some (Exact.wordResponse 0x406E000000000000 64) := by decide
/-- DE9. -/
theorem test_decode_nvfp4e2m1_negative_largest : stepResponse (presenting 1 5 0xD 4) = some (Exact.wordResponse 0xC008000000000000 64) := by decide
/-- DE4. -/
theorem test_decode_nvfp4e2m1_negative_subnormal : stepResponse (presenting 1 5 0x9 4) = some (Exact.wordResponse 0xBFE0000000000000 64) := by decide
/-- B7. -/
theorem test_breakdown_fp32 : stepResponse (presenting 2 0 0xAEDBE6FF 32) = some (Exact.fieldsResponse 1 93 8 6022911 23) := by decide
/-- B9. -/
theorem test_breakdown_fp64 : stepResponse (presenting 2 1 0xFFFFFFFFFFFFFFFF 64) = some (Exact.fieldsResponse 1 2047 11 4503599627370495 52) := by decide
/-- B12. -/
theorem test_breakdown_fp16 : stepResponse (presenting 2 2 0x2E66 16) = some (Exact.fieldsResponse 0 11 5 614 10) := by decide
/-- B17. -/
theorem test_breakdown_bf16 : stepResponse (presenting 2 3 0x3DCD 16) = some (Exact.fieldsResponse 0 123 8 77 7) := by decide
/-- B21. -/
theorem test_breakdown_fp8e4m3 : stepResponse (presenting 2 4 0xC2 8) = some (Exact.fieldsResponse 1 8 4 2 3) := by decide
/-- B26. -/
theorem test_breakdown_nvfp4e2m1 : stepResponse (presenting 2 5 0xD 4) = some (Exact.fieldsResponse 1 2 2 1 1) := by decide
/-- X2. -/
theorem test_malformed_length : stepResponse (presenting 1 2 0x3C00 15) = some (Exact.errorResponse 2) := by decide
/-- X16. -/
theorem test_malformed_high_bit : stepResponse (presenting 2 4 0x178 8) = some (Exact.errorResponse 2) := by decide
/-- X23. -/
theorem test_reserved_format_before_length : stepResponse (presenting 1 7 0x3C00 0) = some (Exact.errorResponse 1) := by decide
/-- X29. -/
theorem test_reserved_operation_first :
    stepResponse (presenting 3 7 0xFFFFFFFFFFFFFFFF 127) = some (Exact.errorResponse 3) := by decide
/-- X19. -/
theorem test_encode_ignores_length : stepResponse (presenting 0 2 0x3FF0000000000000 127) = some (Exact.wordResponse 0x3C00 16) := by
  decide
/-- P1, line 2: the request a forwarded name makes. -/
theorem test_forwarded_result :
    lineRequest [Exact.wordResponse 0x2E66 16] ⟨1, 2, .result 0⟩ = some ⟨1, 2, 0x2E66, 16⟩ := by decide
/-- R70: the implied length. -/
theorem test_implied_length : lineRequest [] ⟨2, 4, .literal 2 0x78⟩ = some ⟨2, 4, 0x78, 8⟩ := by decide

/-! ### Witnesses: for each statement with hypotheses, a state and operands that meet them together -/

theorem witness_CommandWordRoundTrip : Instr.wellFormed .breakdownBf16 = true ∧ decode 0b10011#5 = .command .breakdownBf16 := by
  decide

theorem witness_StepRunsDecodedCommand :
    let s := presenting 1 2 0x3C00 16
    Instr.wellFormed .decodeFp16 = true ∧ decode (s.request.op ++ s.request.fmt) = .command .decodeFp16 ∧
      ∃ t, exec .decodeFp16 s = .next t := ⟨rfl, by decide, _, rfl⟩

theorem witness_FetchedTableWordRuns :
    decodeTableWord 8 0x14 = some .breakdownFp8e4m3 ∧
      ∃ t, exec .breakdownFp8e4m3 (State.reset.withFetchWord 8 0x14) = .next t := ⟨by decide, _, rfl⟩

/-- All three clauses: a reserved operation, a reserved format (the first one), a good command with a bad operand and with a good
one. -/
theorem witness_StatusFollowsErrorOrder :
    (presenting 3 7 0 0).request.op = 3 ∧
    ((presenting 2 6 0 0).request.op ≠ 3 ∧ 6 ≤ (presenting 2 6 0 0).request.fmt.toNat) ∧
    ((presenting 2 5 0x10 4).request.op ≠ 3 ∧ (presenting 2 5 0x10 4).request.fmt.toNat < 6 ∧
      fmtSpec (presenting 2 5 0x10 4).request.fmt = some nvfp4e2m1) ∧
    ((presenting 2 5 0xF 4).request.op ≠ 3 ∧ (presenting 2 5 0xF 4).request.fmt.toNat < 6 ∧
      fmtSpec (presenting 2 5 0xF 4).request.fmt = some nvfp4e2m1) := by decide

theorem witness_ResponseDependsOnRequestAlone :
    let s := presenting 0 0 0 0
    let s' := { s with response := some (Exact.errorResponse 2), delivered := [Exact.errorResponse 2] }
    s.request = s'.request ∧ s ≠ s' := by decide

/-- Each clause: an error, an ENCODE, a DECODE and a BREAKDOWN that succeed. -/
theorem witness_UndrivenOutputsAreZero :
    (∃ t r, transaction (presenting 1 2 0x3C00 15) = .next t ∧ t.response = some r ∧ r.status ≠ 0) ∧
    (∃ t r, transaction (presenting 0 2 0 0) = .next t ∧ t.response = some r ∧ r.status = 0 ∧ (presenting 0 2 0 0).request.op = 0) ∧
    (∃ t r, transaction (presenting 1 2 0 16) = .next t ∧ t.response = some r ∧ r.status = 0 ∧ (presenting 1 2 0 16).request.op = 1) ∧
    ∃ t r, transaction (presenting 2 2 0 16) = .next t ∧ t.response = some r ∧ r.status = 0 ∧ (presenting 2 2 0 16).request.op = 2 :=
  ⟨⟨_, _, rfl, rfl, by decide⟩, ⟨_, _, rfl, rfl, by decide, rfl⟩, ⟨_, _, rfl, rfl, by decide, rfl⟩, ⟨_, _, rfl, rfl, by decide, rfl⟩⟩

/-- Both ways to be malformed, at the boundary: the least word that is too large. -/
theorem witness_MalformedBitStringRaises :
    Instr.decodeFp16 ∈ [Instr.decodeFp16] ∧ (presenting 1 2 0x3C00 15).request.aLen.toNat ≠ (specOf Format.fp16).T ∧
    2 ^ (specOf Format.fp16).T ≤ (presenting 1 2 0x10000 16).request.aWord.toNat ∧
    ¬ ((presenting 1 2 0xFFFF 16).request.aLen.toNat ≠ (specOf Format.fp16).T ∨
      2 ^ (specOf Format.fp16).T ≤ (presenting 1 2 0xFFFF 16).request.aWord.toNat) := by decide

theorem witness_CatalogNumbersAreValid : fmtSpec 5 = some nvfp4e2m1 := by decide

theorem witness_PackAndSplitAreInverse :
    fp16.valid = true ∧ 31 ≤ ones fp16.E ∧ 1023 ≤ ones fp16.M ∧ 0xFFFF < 2 ^ fp16.T := by decide

theorem witness_FieldWordOrdersMagnitudes :
    nvfp4e2m1.valid = true ∧ 0x8 < 2 ^ nvfp4e2m1.T ∧ 0x5 < 2 ^ nvfp4e2m1.T ∧
      (Exact.val nvfp4e2m1 0x8).magnitude = some 0 ∧ (Exact.val nvfp4e2m1 0x5).magnitude = some 3 := by decide +kernel

theorem witness_FormatRangeExtremes :
    nvfp4e2m1.valid = true ∧ 2 ≤ nvfp4e2m1.E ∧ 0x9 < 2 ^ nvfp4e2m1.T ∧ Exact.val nvfp4e2m1 0x9 = .fin true (1 / 2) := by
  decide +kernel

theorem witness_AllOnesExponentIsInfinityOrNaN :
    bf16 ∈ catalog ∧ 0xFF80 < 2 ^ bf16.T ∧ (split bf16 0xFF80).expf = ones bf16.E ∧ 0xF7 < 2 ^ 8 ∧
      (Exact.val fp8e4m3 0xF7).magnitude = some 240 := by decide +kernel

theorem witness_EncodeIgnoresLengthTag :
    Instr.encodeBf16 ∈ [Instr.encodeFp32, .encodeFp64, .encodeFp16, .encodeBf16, .encodeFp8e4m3, .encodeNvfp4e2m1] := by decide

theorem witness_EncodeNaNIsCanonical :
    fp32.valid = true ∧ (presenting 0 0 0xFFF0000000000001 64).request.aWord.extractLsb' 52 11 = 0x7FF#11 ∧
      (presenting 0 0 0xFFF0000000000001 64).request.aWord.extractLsb' 0 52 ≠ 0#52 := by decide

theorem witness_EncodeInfinityWords :
    fp32.valid = true ∧ (presenting 0 0 0x7FF0000000000000 64).request.aWord = 0x7FF0000000000000 ∧
      (presenting 0 0 0xFFF0000000000000 64).request.aWord = 0xFFF0000000000000 := by decide

theorem witness_EncodeZeroKeepsSign :
    fp8e4m3.valid = true ∧ (presenting 0 4 0x8000000000000000 64).request.aWord.extractLsb' 0 63 = 0#63 ∧
      (presenting 0 4 0x8000000000000000 64).request.aWord.getLsbD 63 = true := by decide

theorem witness_ExponentIsExactLogarithm : 0 < (Magnitude.mk 3 (-1)).k := by decide

theorem witness_RoundingIsHalfAwayFromZero :
    (Magnitude.mk 3 (-1)).toRat = ((1 : ℕ) : ℚ) + 1 / 2 ∧
      (presenting 0 2 0x3FF0020000000000 64).request.aWord = 0x3FF0020000000000 := by decide +kernel

/-- EB16: 1 + 2^-11 in fp16; `q = 1`. -/
theorem witness_NormalBranchRounds :
    fp16.valid = true ∧ 0 < (Magnitude.mk 2049 (-11)).k ∧ (2 : ℚ) ^ (0 : ℤ) ≤ (Magnitude.mk 2049 (-11)).toRat ∧
      (Magnitude.mk 2049 (-11)).toRat < 2 ^ ((0 : ℤ) + 1) ∧ 1 ≤ (0 : ℤ) + fp16.B ∧ (0 : ℤ) + fp16.B ≤ 2 ^ fp16.E - 2 ∧
      1 = ⌊((Magnitude.mk 2049 (-11)).toRat / 2 ^ (0 : ℤ) - 1) * 2 ^ fp16.M + 1 / 2⌋₊ ∧ 1 < 2 ^ fp16.M := by decide +kernel

/-- EE19 (carry) and EE22 (carry, saturate): 1.75 and 3.5 in nvfp4-e2m1; `q = 2`. -/
theorem witness_NormalCarryPropagates :
    nvfp4e2m1.valid = true ∧
    (0 < (Magnitude.mk 7 (-2)).k ∧ (2 : ℚ) ^ (0 : ℤ) ≤ (Magnitude.mk 7 (-2)).toRat ∧
      (Magnitude.mk 7 (-2)).toRat < 2 ^ ((0 : ℤ) + 1) ∧ 1 ≤ (0 : ℤ) + nvfp4e2m1.B ∧ (0 : ℤ) + nvfp4e2m1.B ≤ 2 ^ nvfp4e2m1.E - 2 ∧
      2 = ⌊((Magnitude.mk 7 (-2)).toRat / 2 ^ (0 : ℤ) - 1) * 2 ^ nvfp4e2m1.M + 1 / 2⌋₊ ∧ 2 = 2 ^ nvfp4e2m1.M ∧
      ¬ (ones nvfp4e2m1.E : ℤ) ≤ 0 + nvfp4e2m1.B + 1) ∧
    (0 < (Magnitude.mk 7 (-1)).k ∧ (2 : ℚ) ^ (1 : ℤ) ≤ (Magnitude.mk 7 (-1)).toRat ∧
      (Magnitude.mk 7 (-1)).toRat < 2 ^ ((1 : ℤ) + 1) ∧ 1 ≤ (1 : ℤ) + nvfp4e2m1.B ∧ (1 : ℤ) + nvfp4e2m1.B ≤ 2 ^ nvfp4e2m1.E - 2 ∧
      2 = ⌊((Magnitude.mk 7 (-1)).toRat / 2 ^ (1 : ℤ) - 1) * 2 ^ nvfp4e2m1.M + 1 / 2⌋₊ ∧
      (ones nvfp4e2m1.E : ℤ) ≤ 1 + nvfp4e2m1.B + 1) := by decide +kernel

/-- The subnormal hypotheses at a magnitude `k * 2^j` of exponent `e` with mantissa integer `q` in nvfp4-e2m1. -/
abbrev subnormalAt (a : Magnitude) (e : ℤ) (q : Nat) : Prop :=
  0 < a.k ∧ (2 : ℚ) ^ e ≤ a.toRat ∧ a.toRat < 2 ^ (e + 1) ∧ e + nvfp4e2m1.B ≤ 0 ∧
    q = ⌊a.toRat * 2 ^ (nvfp4e2m1.B - 1 + (nvfp4e2m1.M : ℤ)) + 1 / 2⌋₊

/-- EE31's neighbour 0.125 (`q = 0`), EE30 (0.25, the tie, `q = 1`), EE29 (0.5, `q = 1`) and EE27 (0.75, the carry, `q = 2`). -/
theorem witness_SubnormalBranchOutcomes :
    nvfp4e2m1.valid = true ∧ subnormalAt ⟨1, -3⟩ (-3) 0 ∧ subnormalAt ⟨1, -2⟩ (-2) 1 ∧ subnormalAt ⟨1, -1⟩ (-1) 1 ∧
      subnormalAt ⟨3, -2⟩ (-1) 2 ∧ (Magnitude.mk 1 (-2)).toRat = 2 ^ (-nvfp4e2m1.B - (nvfp4e2m1.M : ℤ)) ∧
      2 = 2 ^ nvfp4e2m1.M ∧ ¬ ones nvfp4e2m1.E ≤ 1 := by decide +kernel

/-- A FormatSpec of one exponent bit, where the subnormal carry saturates (R128): hypotheses and the clause's condition. -/
theorem witness_SubnormalBranchOutcomes_saturating :
    FormatSpec.valid ⟨3, 1, 1, 1, 1⟩ = true ∧ subnormalAt ⟨3, -2⟩ (-1) 2 ∧ ones 1 ≤ 1 := by decide +kernel

/-- EE24: 4 in nvfp4-e2m1. -/
theorem witness_OverflowSaturatesToInfinity :
    nvfp4e2m1.valid = true ∧ 0 < (Magnitude.mk 1 2).k ∧ 2 ≤ nvfp4e2m1.E ∧
      (ones nvfp4e2m1.E : ℤ) ≤ flog2 (Magnitude.mk 1 2) + nvfp4e2m1.B := by decide

/-- The least and the largest binary64 magnitude. -/
theorem witness_OperandExponentRanges :
    1 < 2 ^ 64 ∧ val fp64 1 = .fin false ⟨1, -1074⟩ ∧ 0x7FEFFFFFFFFFFFFF < 2 ^ 64 ∧
      val fp64 0x7FEFFFFFFFFFFFFF = .fin false ⟨9007199254740991, 971⟩ := by decide

theorem witness_EncodeIsOneAddition : bf16.valid = true ∧ 0 < (Magnitude.mk 5 (-140)).k := by decide

theorem witness_EncodeInvertsValue :
    fp8e4m3.valid = true ∧ 0x07 < 2 ^ fp8e4m3.T ∧ Exact.val fp8e4m3 0x07 ≠ .nan ∧ 0xFF < 2 ^ fp8e4m3.T ∧
      Exact.val fp8e4m3 0xFF = .nan := by decide +kernel

theorem witness_EncodeSignSymmetry : fp64.valid = true ∧ 0 < (Magnitude.mk 1 0).k := by decide

theorem witness_EncodeIsMonotone :
    fp16.valid = true ∧ 0 < (Magnitude.mk 3 0).k ∧ (Magnitude.mk 3 0).toRat ≤ (Magnitude.mk 7 (-1)).toRat := by decide +kernel

/-- EE30: 0.25 in nvfp4-e2m1 goes to 0.5, a tie with 0. -/
theorem witness_EncodeRoundsToNearest :
    nvfp4e2m1.valid = true ∧ 0 < (Magnitude.mk 1 (-2)).k ∧
      (Exact.val nvfp4e2m1 (enc nvfp4e2m1 (.fin false ⟨1, -2⟩))).magnitude = some (1 / 2) ∧ 0 < 2 ^ nvfp4e2m1.T ∧
      (Exact.val nvfp4e2m1 0).magnitude = some 0 := by decide +kernel

theorem witness_EncodeKeepsClassAndSign : bf16.valid = true ∧ 0 < (Magnitude.mk 1 200).k := by decide

theorem witness_EncodedWordHasFormatWidth : fp32.valid = true := by decide

/-- Each format's clause, at the largest word. -/
theorem witness_DecodeAnswersExactWord :
    ((32 : Len).toNat = 32 ∧ (0xFFFFFFFF : Word).toNat < 2 ^ 32) ∧ (64 : Len).toNat = 64 ∧
    ((16 : Len).toNat = 16 ∧ (0xFFFF : Word).toNat < 2 ^ 16) ∧ ((8 : Len).toNat = 8 ∧ (0xFF : Word).toNat < 2 ^ 8) ∧
    ((4 : Len).toNat = 4 ∧ (0xF : Word).toNat < 2 ^ 4) ∧ ((presenting 1 5 0x10 4).request.aWord.toNat ≥ 2 ^ (specOf .nvfp4e2m1).T) := by
  decide

theorem witness_DecodeIsExact :
    fp16 ∈ catalog ∧ 0x0001 < 2 ^ fp16.T ∧ Exact.val fp16 0x0001 ≠ .nan ∧ 0x3E70000000000000 < 2 ^ 64 ∧
      Exact.val fp64 0x3E70000000000000 = Exact.val fp16 0x0001 := by decide +kernel

theorem witness_DecodeNaNIsCanonical :
    (presenting 1 5 0xF 4).request.aLen.toNat = (specOf .nvfp4e2m1).T ∧
      (presenting 1 5 0xF 4).request.aWord.toNat < 2 ^ (specOf .nvfp4e2m1).T ∧
      Exact.val (specOf .nvfp4e2m1) (presenting 1 5 0xF 4).request.aWord.toNat = .nan := by decide +kernel

theorem witness_DecodeBitByBit : fp8e4m3 ∈ catalog ∧ fp8e4m3 ≠ fp64 ∧ 0x83 < 2 ^ fp8e4m3.T := by decide

theorem witness_Binary64CommandsAreIdentity : (presenting 1 1 1 64).request.aLen = 64 := by decide

/-- Also the witness of BreakdownFieldsAreWholeWord, whose hypotheses are the same. -/
theorem witness_DecodeThenEncodeIsIdentity :
    (presenting 1 3 0xFFFF 16).request.aLen.toNat = (specOf .bf16).T ∧
      (presenting 1 3 0xFFFF 16).request.aWord.toNat < 2 ^ (specOf .bf16).T := by decide

/-- The operand 1.5 is the value of an fp16 word; the second is a NaN. -/
theorem witness_EncodeThenDecodeReturnsFormatValues :
    (0x3E00 < 2 ^ (specOf .fp16).T ∧
      Exact.val fp64 (presenting 0 2 0x3FF8000000000000 64).request.aWord.toNat = Exact.val (specOf .fp16) 0x3E00 ∧
      Exact.val (specOf .fp16) 0x3E00 ≠ .nan) ∧
    Exact.val fp64 (presenting 0 2 0xFFF0000000000001 64).request.aWord.toNat = .nan := by decide +kernel

theorem witness_BreakdownFieldsAreWholeWord :
    (presenting 2 4 0xC2 8).request.aLen.toNat = (specOf .fp8e4m3).T ∧
      (presenting 2 4 0xC2 8).request.aWord.toNat < 2 ^ (specOf .fp8e4m3).T := by decide

/-- Each format's clause, at the largest word, and a word that is one too large. -/
theorem witness_BreakdownAnswersFields :
    ((32 : Len).toNat = 32 ∧ (0xFFFFFFFF : Word).toNat < 2 ^ 32) ∧ (64 : Len).toNat = 64 ∧
    ((16 : Len).toNat = 16 ∧ (0xFFFF : Word).toNat < 2 ^ 16) ∧ ((8 : Len).toNat = 8 ∧ (0xFF : Word).toNat < 2 ^ 8) ∧
    ((4 : Len).toNat = 4 ∧ (0xF : Word).toNat < 2 ^ 4) ∧ ((presenting 2 4 0x100 8).request.aWord.toNat ≥ 2 ^ (specOf .fp8e4m3).T) := by
  decide

theorem witness_BreakdownAgreesWithEncodeAndDecode :
    ∃ r, exec (Instr.ofParts .breakdown .fp8e4m3) (presenting 2 4 0xC2 8) =
      .next { presenting 2 4 0xC2 8 with response := some r } ∧ r.status = 0 := ⟨_, rfl, by decide⟩

theorem witness_StepKeepsResponsesWellFormed : State.reset.inv ∧ ∃ t, step State.reset = .next t :=
  ⟨⟨by simp [State.reset], by simp [State.reset]⟩, _, rfl⟩

theorem witness_RepeatedRequestGetsSameResponse : (presenting 1 2 0x3C00 15).pending = [] := rfl

/-- P1. -/
theorem witness_ProgramRunsToItsEnd :
    Line.allWellFormed [] [⟨0, 2, .literal 16 0x3FB999999999999A⟩, ⟨1, 2, .result 0⟩, ⟨2, 2, .result 0⟩] = true := by decide

end Sys2Proof.Tests
end

section
/-! PROOFS. The encoder's exponent (R11, R124) and its rounding (R11, R126). -/
namespace Sys2Proof.Machine

/-- Settles O23: `flog2` is the integer logarithm of the magnitude's value, which has these two bounds. -/
theorem exponentIsExactLogarithm : Obligations.ExponentIsExactLogarithm := by
  intro a ha
  rw [flog2_eq_log ha]
  exact log_bounds (toRat_pos ha)

/-- `rhaz_eq_exact` with the rule's formula written out (R11). -/
theorem rhaz_eq_floor (y : Magnitude) : rhaz y = ⌊y.toRat + 1 / 2⌋₊ := rhaz_eq_exact y

/-- Adding one half carries into the integer part exactly when the bit of weight one half is set (R126). -/
theorem floor_add_half {y : ℚ} (hy : 0 ≤ y) :
    ⌊y + 1 / 2⌋₊ = ⌊y⌋₊ + (if 1 / 2 ≤ Int.fract y then 1 else 0) := by
  have hsum : (⌊y⌋₊ : ℚ) + Int.fract y = y := by
    rw [natCast_floor_eq_intCast_floor hy, Int.floor_add_fract]
  have hnonneg : 0 ≤ Int.fract y := Int.fract_nonneg y
  have hlt : Int.fract y < 1 := Int.fract_lt_one y
  rw [Nat.floor_eq_iff (by positivity)]
  by_cases hhalf : 1 / 2 ≤ Int.fract y
  · rw [if_pos hhalf]
    push_cast
    constructor <;> linarith
  · rw [if_neg hhalf]
    push_cast
    constructor <;> linarith

/-- A tie goes up, away from zero (R126). -/
theorem rhaz_of_tie {y : Magnitude} {n : Nat} (h : y.toRat = n + 1 / 2) : rhaz y = n + 1 := by
  have hsum : (n : ℚ) + 1 / 2 + 1 / 2 = (n + 1 : ℕ) := by push_cast; ring
  rw [rhaz_eq_floor, h, hsum, Nat.floor_natCast]

/-- R126's example: `1 + 2^-11` is halfway between 0x3C00 and 0x3C01 in fp16, where nearest-even would give 0x3C00. -/
theorem enc_fp16_tie : enc fp16 (val fp64 0x3FF0020000000000) = 0x3C01 := by decide

theorem exec_encodeFp16_tie {s : State} (h : s.request.aWord = 0x3FF0020000000000) :
    exec .encodeFp16 s = .next { s with response := some (Exact.wordResponse 0x3C01 16) } := by
  have hanswer : encodeAnswer fp16 s.request = .word 0x3C01 16 := by
    rw [encodeAnswer, h]
    exact congrArg (fun w => Answer.word (BitVec.ofNat 64 w) 16) enc_fp16_tie
  rw [exec_eq_respond]
  exact congrArg (respond · s) hanswer

/-- Settles O24: `rhaz` is `floor(y + 1/2)`, where the bit of weight one half decides the carry. -/
theorem roundingIsHalfAwayFromZero : Obligations.RoundingIsHalfAwayFromZero := by
  refine ⟨fun y => ⟨rhaz_eq_floor y, ?_⟩, fun _ _ => rhaz_of_tie, fun _ => exec_encodeFp16_tie⟩
  rw [rhaz_eq_floor, floor_add_half (toRat_nonneg y)]

end Sys2Proof.Machine
end

section
/-! PROOFS. The width of the encoder's word (R25, R65, R120): the mantissa integer is at most `2^M`, and every word that `pack` is
given fits `T` bits. -/
namespace Sys2Proof.Machine

/-- The contract of R90, read off the check. -/
theorem valid_iff {F : FormatSpec} :
    F.valid = true ↔ 1 ≤ F.M ∧ 1 ≤ F.E ∧ F.signBits = 1 ∧ F.T = F.signBits + F.E + F.M := by
  simp [FormatSpec.valid, and_assoc]

/-- The packed word of three fields in their ranges has `T` bits (R65). -/
theorem pack_lt {F : FormatSpec} (hF : F.valid = true) (s : Bool) {e m : Nat} (he : e ≤ ones F.E) (hm : m < 2 ^ F.M) :
    pack F s e m < 2 ^ F.T := by
  obtain ⟨-, -, hsign, hT⟩ := valid_iff.1 hF
  have hE : e + 1 ≤ 2 ^ F.E := by
    have := Nat.two_pow_pos F.E
    unfold ones at he
    omega
  have hlow : e * 2 ^ F.M + m < 2 ^ (F.E + F.M) := by
    calc e * 2 ^ F.M + m < (e + 1) * 2 ^ F.M := by rw [add_one_mul]; omega
      _ ≤ 2 ^ (F.E + F.M) := by rw [pow_add]; exact Nat.mul_le_mul_right _ hE
  have hhigh : s.toNat * 2 ^ (F.E + F.M) ≤ 2 ^ (F.E + F.M) := by
    simpa using Nat.mul_le_mul_right (2 ^ (F.E + F.M)) s.toNat_le
  calc pack F s e m < 2 ^ (F.E + F.M) + 2 ^ (F.E + F.M) := by unfold pack; omega
    _ = 2 ^ F.T := by rw [hT, hsign, add_assoc, add_comm 1, pow_succ, mul_two]

/-- A magnitude below `2^n` rounds to at most `2^n`. -/
theorem rhaz_le_two_pow {y : Magnitude} {n : Nat} (h : y.toRat < 2 ^ n) : rhaz y ≤ 2 ^ n := by
  have hlt : y.toRat + 1 / 2 < ((2 ^ n + 1 : ℕ) : ℚ) := by push_cast; linarith
  rw [rhaz_eq_floor]
  exact Nat.lt_succ_iff.1 (Nat.floor_lt' (Nat.succ_ne_zero _) |>.2 hlt)

/-- The mantissa integer of the subnormal branch (R128). -/
theorem subnormal_rhaz_le {F : FormatSpec} {a : Magnitude} (ha : 0 < a.k) (h : flog2 a + F.B ≤ 0) :
    rhaz (a.scale (F.B - 1 + F.M)) ≤ 2 ^ F.M := by
  apply rhaz_le_two_pow
  have hexp : flog2 a + 1 + (F.B - 1 + F.M) ≤ (F.M : ℤ) := by omega
  calc (a.scale (F.B - 1 + F.M)).toRat = a.toRat * 2 ^ (F.B - 1 + F.M : ℤ) := toRat_scale _ _
    _ < 2 ^ (flog2 a + 1) * 2 ^ (F.B - 1 + F.M : ℤ) :=
        mul_lt_mul_of_pos_right (exponentIsExactLogarithm a ha).2 (two_zpow_pos _)
    _ = 2 ^ (flog2 a + 1 + (F.B - 1 + F.M)) := (zpow_add₀ two_ne_zero _ _).symm
    _ ≤ 2 ^ (F.M : ℤ) := zpow_le_zpow_right₀ one_le_two hexp
    _ = 2 ^ F.M := zpow_natCast _ _

/-- `a / 2^e - 1` is below 1 (R125). -/
theorem toRat_fraction_lt_one {a : Magnitude} (ha : 0 < a.k) : (fraction a).toRat < 1 := by
  have hhi := (exponentIsExactLogarithm a ha).2
  rw [zpow_add_one₀ two_ne_zero, mul_comm, ← div_lt_iff₀ (two_zpow_pos _)] at hhi
  rw [toRat_fraction ha]
  linarith

/-- The mantissa integer of the normal branch (R125). -/
theorem normal_rhaz_le (F : FormatSpec) {a : Magnitude} (ha : 0 < a.k) : rhaz ((fraction a).scale F.M) ≤ 2 ^ F.M := by
  apply rhaz_le_two_pow
  rw [toRat_scale, zpow_natCast]
  exact mul_lt_of_lt_one_left (by positivity) (toRat_fraction_lt_one ha)

/-- The carry and the saturation leave a word of `T` bits (R127). -/
theorem finish_lt {F : FormatSpec} (hF : F.valid = true) (s : Bool) (ef : Nat) {q : Nat} (hq : q ≤ 2 ^ F.M) :
    finish F s ef q < 2 ^ F.T := by
  have hM := Nat.two_pow_pos F.M
  rw [finish_eq]
  split_ifs with hcarry hsat hsat
  · exact pack_lt hF s le_rfl hM
  · exact pack_lt hF s (by omega) hM
  · exact pack_lt hF s le_rfl hM
  · exact pack_lt hF s (by omega) (by omega)

theorem encFinite_lt {F : FormatSpec} (hF : F.valid = true) (s : Bool) {a : Magnitude} (ha : 0 < a.k) :
    encFinite F s a < 2 ^ F.T := by
  unfold encFinite
  dsimp only
  split_ifs with hsub hover
  · exact finish_lt hF s 0 (subnormal_rhaz_le ha hsub)
  · exact pack_lt hF s le_rfl (Nat.two_pow_pos _)
  · exact finish_lt hF s _ (normal_rhaz_le F ha)

/-- The encoder's word has `T` bits, whatever the value it encodes (R25, R120). -/
theorem enc_lt {F : FormatSpec} (hF : F.valid = true) {x : XReal Magnitude} (hx : x.positive) : enc F x < 2 ^ F.T := by
  cases x with
  | nan =>
    have hM : 1 ≤ F.M := (valid_iff.1 hF).1
    exact pack_lt hF false le_rfl (Nat.pow_lt_pow_right one_lt_two (by omega))
  | inf s => exact pack_lt hF s le_rfl (Nat.two_pow_pos _)
  | zero s => exact pack_lt hF s (Nat.zero_le _) (Nat.two_pow_pos _)
  | fin s a => exact encFinite_lt hF s hx

/-- Settles O36: a word's value is NaN, infinite, zero or of positive magnitude, and each of the encoder's branches packs fields that
are in their ranges. -/
theorem encodedWordHasFormatWidth : Obligations.EncodedWordHasFormatWidth :=
  fun _ d hF => enc_lt hF (val_positive fp64 d)

end Sys2Proof.Machine
end

section
/-! PROOFS. The transaction as one total function of the request (R31, R66), and what it leaves unchanged (R20, R43, R46). -/
namespace Sys2Proof.Machine

/-- The three things a request can be answered with, in the order of the dispatch (R66). -/
theorem answer_cases (r : Request) :
    (r.op = 3 ∧ answer r = .raised .illegalOperation) ∨
    (r.op ≠ 3 ∧ 6 ≤ r.fmt.toNat ∧ answer r = .raised .configurationError) ∨
    ∃ (o : Operation) (f : Format), r.op = o.code ∧ r.fmt = f.code ∧ answer r = answerOf o (specOf f) r := by
  rcases decode_cases r.op r.fmt with ⟨hop, hd⟩ | ⟨hop, hfmt, hd⟩ | ⟨o, f, hop, hfmt, hd⟩
  · exact .inl ⟨hop, by rw [answer, hd]; rfl⟩
  · exact .inr (.inl ⟨hop, hfmt, by rw [answer, hd]; rfl⟩)
  · exact .inr (.inr ⟨o, f, hop, hfmt, by simp [answer, hd]⟩)

/-- The rules' response of an operation over a FormatSpec (R130, R155, R170). -/
def Exact.responseOf : Operation → FormatSpec → Request → Response
  | .encode => Exact.encodeResponse
  | .decode => Exact.decodeResponse
  | .breakdown => Exact.breakdownResponse

theorem transact_of_reservedOperation {r : Request} (hop : r.op = 3) : Exact.transact r = Exact.errorResponse 3 := if_pos hop

theorem transact_of_reservedFormat {r : Request} (hop : r.op ≠ 3) (hfmt : 6 ≤ r.fmt.toNat) :
    Exact.transact r = Exact.errorResponse 1 := by
  rw [Exact.transact, if_neg hop, if_pos hfmt]

theorem transact_of_codes {r : Request} {o : Operation} {f : Format} (hop : r.op = o.code) (hfmt : r.fmt = f.code) :
    Exact.transact r = Exact.responseOf o (specOf f) r := by
  have hop3 : o.code ≠ 3 := by cases o <;> decide
  have hfmt6 : ¬ 6 ≤ f.code.toNat := by cases f <;> decide
  simp only [Exact.transact, hop, hfmt, if_neg hop3, if_neg hfmt6, fmtSpec_code]
  cases o <;> rfl

/-- The operand check of the rules is the negation of the machine's (R150, R172). -/
theorem malformed_eq_not_wellFormedFor (F : FormatSpec) (r : Request) :
    Exact.malformed F r = !wellFormedFor F r.aWord r.aLen := by
  simp only [Exact.malformed, wellFormedFor, Bool.not_and, ← decide_not, not_lt, ne_eq]

/-- The top bit of a word, as a bit test and as the slice of R8. -/
theorem ofBool_testBit (w i : Nat) : BitVec.ofBool (w.testBit i) = BitVec.ofNat 1 (w / 2 ^ i % 2) := by
  rw [← Nat.toNat_testBit]
  cases w.testBit i <;> rfl

theorem encodeAnswer_onPorts {F : FormatSpec} (hF : F.valid = true) (r : Request) :
    (encodeAnswer F r).onPorts = Exact.encodeResponse F r := by
  rw [Exact.encodeResponse, ← enc_val_eq_exact hF]
  rfl

theorem decodeAnswer_onPorts (F : FormatSpec) (r : Request) : (decodeAnswer F r).onPorts = Exact.decodeResponse F r := by
  rw [Exact.decodeResponse, malformed_eq_not_wellFormedFor]
  cases h : wellFormedFor F r.aWord r.aLen with
  | true =>
    rw [decodeAnswer_of_wellFormed h, ← enc_val_eq_exact (F := fp64) (by decide)]
    rfl
  | false =>
    rw [decodeAnswer_of_malformed h]
    rfl

theorem breakdownAnswer_onPorts (F : FormatSpec) (r : Request) :
    (breakdownAnswer F r).onPorts = Exact.breakdownResponse F r := by
  rw [Exact.breakdownResponse, malformed_eq_not_wellFormedFor]
  cases h : wellFormedFor F r.aWord r.aLen with
  | true =>
    rw [breakdownAnswer_of_wellFormed h, split, ofBool_testBit]
    rfl
  | false =>
    rw [breakdownAnswer_of_malformed h]
    rfl

/-- Each operation drives the rules' response on the output ports. -/
theorem answerOf_onPorts (o : Operation) {F : FormatSpec} (hF : F.valid = true) (r : Request) :
    (answerOf o F r).onPorts = Exact.responseOf o F r := by
  cases o with
  | encode => exact encodeAnswer_onPorts hF r
  | decode => exact decodeAnswer_onPorts F r
  | breakdown => exact breakdownAnswer_onPorts F r

/-- The machine's answer on the output ports is `transact` of the request (R31, R66). -/
theorem answer_onPorts (r : Request) : (answer r).onPorts = Exact.transact r := by
  rcases answer_cases r with ⟨hop, h⟩ | ⟨hop, hfmt, h⟩ | ⟨o, f, hop, hfmt, h⟩
  · rw [h, transact_of_reservedOperation hop]; rfl
  · rw [h, transact_of_reservedFormat hop hfmt]; rfl
  · rw [h, transact_of_codes hop hfmt, answerOf_onPorts o (specOf_valid f)]

/-- Settles O7: a transaction responds with its request's answer, which is `transact` of the request on the output ports. -/
theorem transactionIsTransact : Obligations.TransactionIsTransact := by
  intro s
  rw [transaction_eq_respond, respond, answer_onPorts]

/-- Settles O8: both transactions answer `transact` of the one request. -/
theorem responseDependsOnRequestAlone : Obligations.ResponseDependsOnRequestAlone := by
  intro s₁ s₂ hreq
  refine ⟨Exact.transact s₁.request, transactionIsTransact s₁, ?_⟩
  rw [hreq]
  exact transactionIsTransact s₂

/-- Settles O10: every command only responds, and a response changes the output ports alone. -/
theorem commandsChangeOnlyTheOutputPorts : Obligations.CommandsChangeOnlyTheOutputPorts := by
  intro i s
  refine ⟨(answerOf i.operation (specOf i.format) s.request).onPorts, exec_eq_respond i s, fun t ht => ?_⟩
  rw [exec_eq_respond] at ht
  obtain rfl := respond_next ht
  exact ⟨rfl, rfl, rfl, rfl⟩

end Sys2Proof.Machine
end

section
/-! PROOFS. Every response is well formed (R25, R26, R193), an invariant of every step. -/
namespace Sys2Proof.Machine

/-- The three widths of a format of the catalog are within the ports that carry them (R26, R92). -/
theorem specOf_widths (f : Format) : (specOf f).T ≤ 64 ∧ (specOf f).E ≤ 11 ∧ (specOf f).M ≤ 52 := by
  cases f <;> decide

/-- A number of at most `n` bits keeps its value as a word of `n` bits. -/
theorem toNat_ofNat_of_lt_two_pow {n T w : Nat} (hT : T ≤ n) (hw : w < 2 ^ T) : (BitVec.ofNat n w).toNat = w := by
  rw [BitVec.toNat_ofNat, Nat.mod_eq_of_lt (hw.trans_le (Nat.pow_le_pow_right two_pos hT))]

theorem raised_wellFormed (e : Error) : (Answer.raised e).onPorts.wellFormed = true := by
  cases e <;> decide

/-- A word below `2^T`, answered with the length `T` of a format, is a well-formed result (R25). -/
theorem word_wellFormed (f : Format) {w : Nat} (hw : w < 2 ^ (specOf f).T) :
    (Answer.word (BitVec.ofNat 64 w) (BitVec.ofNat 7 (specOf f).T)).onPorts.wellFormed = true := by
  have hT := (specOf_widths f).1
  have hlen : (BitVec.ofNat 7 (specOf f).T).toNat = (specOf f).T := by
    rw [BitVec.toNat_ofNat, Nat.mod_eq_of_lt (by omega)]
  have hmem : ∃ F ∈ catalog, (specOf f).T = F.T := ⟨specOf f, specOf_mem f, rfl⟩
  simp [Response.wellFormed, Response.isWord, Answer.onPorts, Response.zero, statusOk, hlen, toNat_ofNat_of_lt_two_pow hT hw, hw,
    hmem]

/-- The fields of a word, answered with the lengths `E` and `M` of its format, are a well-formed breakdown (R170). -/
theorem fields_wellFormed (f : Format) (s : BitVec 1) {e m : Nat} (he : e < 2 ^ (specOf f).E) (hm : m < 2 ^ (specOf f).M) :
    (Answer.fields s (BitVec.ofNat 11 e) (BitVec.ofNat 4 (specOf f).E) (BitVec.ofNat 52 m)
      (BitVec.ofNat 6 (specOf f).M)).onPorts.wellFormed = true := by
  obtain ⟨-, hE, hM⟩ := specOf_widths f
  have helen : (BitVec.ofNat 4 (specOf f).E).toNat = (specOf f).E := by
    rw [BitVec.toNat_ofNat, Nat.mod_eq_of_lt (by omega)]
  have hmlen : (BitVec.ofNat 6 (specOf f).M).toNat = (specOf f).M := by
    rw [BitVec.toNat_ofNat, Nat.mod_eq_of_lt (by omega)]
  have hmem : ∃ F ∈ catalog, (specOf f).E = F.E ∧ (specOf f).M = F.M := ⟨specOf f, specOf_mem f, rfl, rfl⟩
  simp [Response.wellFormed, Response.isFields, Answer.onPorts, Response.zero, statusOk, helen, hmlen,
    toNat_ofNat_of_lt_two_pow hE he, toNat_ofNat_of_lt_two_pow hM hm, he, hm, hmem]

/-- ENCODE's response is well formed. -/
theorem encodeAnswer_wellFormed (f : Format) (r : Request) : (encodeAnswer (specOf f) r).onPorts.wellFormed = true :=
  word_wellFormed f (enc_lt (specOf_valid f) (val_positive fp64 _))

/-- DECODE's response is well formed: an error, or a binary64 word. -/
theorem decodeAnswer_wellFormed (F : FormatSpec) (r : Request) : (decodeAnswer F r).onPorts.wellFormed = true := by
  cases h : wellFormedFor F r.aWord r.aLen with
  | true =>
    rw [decodeAnswer_of_wellFormed h]
    exact word_wellFormed .fp64 (enc_lt (specOf_valid .fp64) (val_positive F _))
  | false =>
    rw [decodeAnswer_of_malformed h]
    exact raised_wellFormed _

/-- BREAKDOWN's response is well formed: an error, or the fields of a word. -/
theorem breakdownAnswer_wellFormed (f : Format) (r : Request) : (breakdownAnswer (specOf f) r).onPorts.wellFormed = true := by
  cases h : wellFormedFor (specOf f) r.aWord r.aLen with
  | true =>
    rw [breakdownAnswer_of_wellFormed h]
    exact fields_wellFormed f _ (Nat.mod_lt _ (Nat.two_pow_pos _)) (Nat.mod_lt _ (Nat.two_pow_pos _))
  | false =>
    rw [breakdownAnswer_of_malformed h]
    exact raised_wellFormed _

/-- Every request is answered with a well-formed response. -/
theorem answer_wellFormed (r : Request) : (answer r).onPorts.wellFormed = true := by
  rcases answer_cases r with ⟨-, h⟩ | ⟨-, -, h⟩ | ⟨o, f, -, -, h⟩
  · rw [h]; exact raised_wellFormed _
  · rw [h]; exact raised_wellFormed _
  · rw [h]
    cases o with
    | encode => exact encodeAnswer_wellFormed f r
    | decode => exact decodeAnswer_wellFormed (specOf f) r
    | breakdown => exact breakdownAnswer_wellFormed f r

/-- Settles O47: a step's one new response, on the ports and at the end of the delivered list, is the answer to its request. -/
theorem stepKeepsResponsesWellFormed : Obligations.StepKeepsResponsesWellFormed := by
  intro s t ⟨_, hdelivered⟩ hstep
  rw [step_eq] at hstep
  cases hstep
  refine ⟨fun r hr => ?_, fun r hr => ?_⟩
  · cases hr
    exact answer_wellFormed s.request
  · rcases List.mem_append.1 hr with hold | hnew
    · exact hdelivered r hold
    · rw [List.mem_singleton.1 hnew]
      exact answer_wellFormed s.request

end Sys2Proof.Machine
end

section
/-! PROOFS. A request that stays on the ports (log 4) is answered again, with the same response (R43, R194). -/
namespace Sys2Proof.Machine

/-- With nothing lined up, a step answers the request and leaves it on the ports, so the next step starts in the same situation. -/
theorem step_of_pending_nil {s : State} (h : s.pending = []) :
    step s = .next
      { s with
        response := some (Exact.transact s.request)
        delivered := s.delivered ++ [Exact.transact s.request] } := by
  rw [step_eq, answer_onPorts, h]
  rfl

/-- Settles O50: the first step keeps the request and the empty list, so the second answers the same request, an error or not. -/
theorem repeatedRequestGetsSameResponse : Obligations.RepeatedRequestGetsSameResponse :=
  fun _ h => ⟨_, _, step_of_pending_nil h, step_of_pending_nil h, rfl, rfl, rfl, rfl⟩

end Sys2Proof.Machine
end

section
/-! PROOFS. The fields of a format word: `pack` and `split` are inverse (R64, R65). -/
namespace Sys2Proof.Machine

theorem le_ones_iff {n m : Nat} : m ≤ ones n ↔ m < 2 ^ n := Nat.le_sub_one_iff_lt (Nat.two_pow_pos n)

/-- A packed word is its three fields as digits: the mantissa to the base `2^M`, the exponent above it to the base `2^E`, the sign on
top. -/
theorem pack_eq_digits (F : FormatSpec) (s : Bool) (e m : Nat) : pack F s e m = m + 2 ^ F.M * (e + 2 ^ F.E * s.toNat) := by
  rw [pack, pow_add]
  ring

/-- The sign bit of a word of `T` bits is everything above its exponent field (R64). -/
theorem toNat_split_sign {F : FormatSpec} (hF : F.valid = true) {w : Nat} (hw : w < 2 ^ F.T) :
    (split F w).sign.toNat = w / 2 ^ F.M / 2 ^ F.E := by
  obtain ⟨-, -, hsign, hT⟩ := valid_iff.1 hF
  have htop : F.T - 1 = F.M + F.E := by omega
  have hbit : w / 2 ^ (F.T - 1) < 2 := by
    rw [Nat.div_lt_iff_lt_mul (Nat.two_pow_pos _), ← pow_succ']
    rwa [Nat.sub_add_cancel (by omega)]
  rw [split, Nat.toNat_testBit, Nat.mod_eq_of_lt hbit, htop, pow_add, Nat.div_div_eq_div_mul]

/-- Splitting a packed word gives its three fields back. -/
theorem split_pack {F : FormatSpec} (hF : F.valid = true) (s : Bool) {e m : Nat} (he : e < 2 ^ F.E) (hm : m < 2 ^ F.M) :
    split F (pack F s e m) = { sign := s, expf := e, manf := m } := by
  obtain ⟨hhigh, hmanf⟩ := (Nat.div_mod_unique (Nat.two_pow_pos F.M)).2 ⟨(pack_eq_digits F s e m).symm, hm⟩
  obtain ⟨htop, hexpf⟩ := (Nat.div_mod_unique (Nat.two_pow_pos F.E)).2 ⟨rfl, he⟩
  rw [← hhigh] at htop hexpf
  have hsign : (split F (pack F s e m)).sign = s := by
    have htoNat : Function.Injective Bool.toNat := by decide
    exact htoNat ((toNat_split_sign hF (pack_lt hF s (le_ones_iff.2 he) hm)).trans htop)
  rw [Fields.mk.injEq]
  exact ⟨hsign, hexpf, hmanf⟩

/-- Packing the fields of a word gives the word back. -/
theorem pack_split {F : FormatSpec} (hF : F.valid = true) {w : Nat} (hw : w < 2 ^ F.T) :
    pack F (split F w).sign (split F w).expf (split F w).manf = w := by
  rw [pack_eq_digits, toNat_split_sign hF hw]
  simp only [split, Nat.mod_add_div]

/-- Settles O14: the fields are the digits of a division by `2^M` and of another by `2^E`, with the sign as the last quotient. -/
theorem packAndSplitAreInverse : Obligations.PackAndSplitAreInverse := by
  refine fun F hF => ⟨fun s e m he hm => ?_, fun w hw => ⟨?_, ?_, pack_split hF hw⟩⟩
  · exact ⟨pack_lt hF s he (le_ones_iff.1 hm), split_pack hF s (le_ones_iff.1 he) (le_ones_iff.1 hm)⟩
  · exact le_ones_iff.2 (Nat.mod_lt _ (Nat.two_pow_pos _))
  · exact le_ones_iff.2 (Nat.mod_lt _ (Nat.two_pow_pos _))

end Sys2Proof.Machine
end

section
/-! PROOFS. The command word and its decoder (R60, R61, R62, R67). -/
namespace Sys2Proof

/-- The decoder reads the command off its two codes. -/
theorem decode_encode (i : Instr) : decode (encode i) = .command i := by
  simp [decode, encode, ofParts_parts]

/-- The decoder answers a command on that command's word only. -/
theorem encode_of_decode {c : BitVec 5} {i : Instr} (h : decode c = .command i) : encode i = c := by
  rw [← append_fields c] at h ⊢
  rcases decode_cases (opField c) (fmtField c) with ⟨-, hd⟩ | ⟨-, -, hd⟩ | ⟨o, f, hop, hfmt, hd⟩
  · cases h.symm.trans hd
  · cases h.symm.trans hd
  · cases h.symm.trans hd
    rw [encode, operation_ofParts, format_ofParts, hop, hfmt]

/-- Settles O1: `decode_encode` and `encode_of_decode` are its two directions. -/
theorem commandWordRoundTrip : Obligations.CommandWordRoundTrip :=
  ⟨fun i _ => decode_encode i, fun _ _ => encode_of_decode⟩

/-- Settles O2: six of the words are the words of their commands, and the other two are rejected. -/
theorem writtenOutCommandWordsDecode : Obligations.WrittenOutCommandWordsDecode :=
  ⟨decode_encode .encodeFp32, decode_encode .encodeFp8e4m3, decode_encode .decodeFp16, decode_encode .decodeFp64,
    decode_encode .breakdownBf16, decode_encode .breakdownNvfp4e2m1, by decide, by decide⟩

/-- `CMD = op * 8 + fmt` (R60). -/
theorem toNat_append_codes (op : BitVec 2) (fmt : BitVec 3) : (op ++ fmt).toNat = op.toNat * 8 + fmt.toNat := by
  rw [BitVec.toNat_append, ← Nat.shiftLeft_add_eq_or_of_lt fmt.isLt, Nat.shiftLeft_eq]

theorem Operation.code_lt (o : Operation) : o.code.toNat < 3 := by cases o <;> decide

theorem Format.code_lt (f : Format) : f.code.toNat < 6 := by cases f <;> decide

/-- The six values of `CMD` with a defined operation and a reserved format (R67). -/
theorem mem_reservedFormats_iff {o f : Nat} (ho : o < 3) (hf : f < 8) : o * 8 + f ∈ [6, 7, 14, 15, 22, 23] ↔ 6 ≤ f := by
  simp only [List.mem_cons, List.not_mem_nil, or_false]
  omega

end Sys2Proof
end

section
/-! PROOFS. The opcode map: what a transaction does on each of the 32 values of `CMD` (R66, R67, R68). -/
namespace Sys2Proof.Machine

/-- The three outcomes of the dispatch: a reserved operation raises IllegalOperation, then a reserved format raises
ConfigurationError, and the command of any other two codes runs. -/
theorem transaction_cases (s : State) :
    (s.request.op = 3 ∧ transaction s = .next { s with response := some (Exact.errorResponse 3) }) ∨
    (s.request.op ≠ 3 ∧ 6 ≤ s.request.fmt.toNat ∧ transaction s = .next { s with response := some (Exact.errorResponse 1) }) ∨
    ∃ (o : Operation) (f : Format), s.request.op = o.code ∧ s.request.fmt = f.code ∧ transaction s = exec (Instr.ofParts o f) s := by
  rcases decode_cases s.request.op s.request.fmt with ⟨hop, hd⟩ | ⟨hop, hfmt, hd⟩ | ⟨o, f, hop, hfmt, hd⟩
  · exact .inl ⟨hop, by rw [transaction, State.command, hd]; rfl⟩
  · exact .inr (.inl ⟨hop, hfmt, by rw [transaction, State.command, hd]; rfl⟩)
  · exact .inr (.inr ⟨o, f, hop, hfmt, by rw [transaction, State.command, hd]⟩)

/-- Settles O3: each outcome of the dispatch fixes the range of `op * 8 + fmt`; the 18 words that decode are counted. -/
theorem opcodeMapDividesCommands : Obligations.OpcodeMapDividesCommands := by
  refine ⟨by decide, fun s => ?_⟩
  dsimp only
  have hfmt8 : s.request.fmt.toNat < 8 := s.request.fmt.isLt
  rcases transaction_cases s with ⟨hop, ht⟩ | ⟨hop, hfmt, ht⟩ | ⟨o, f, hop, hfmt, ht⟩
  · have hop3 : s.request.op.toNat = 3 := congrArg BitVec.toNat hop
    rwa [if_pos (by omega)]
  · have hop3 : s.request.op.toNat < 3 := by bv_omega
    rwa [if_neg (by omega), if_pos ((mem_reservedFormats_iff hop3 hfmt8).2 hfmt)]
  · have ho := o.code_lt
    have hf := f.code_lt
    rw [hop, hfmt, if_neg (by omega), if_neg (by rw [mem_reservedFormats_iff ho (by omega)]; omega)]
    refine ⟨Instr.ofParts o f, by simp, by simp, ?_, ht⟩
    rw [encode, operation_ofParts, format_ofParts, toNat_append_codes]

end Sys2Proof.Machine
end

section
/-! PROOFS. The five classes of a word (R96). -/
namespace Sys2Proof.Machine

/-- The words of a format by class, each with its value: R96 read from the value to the word. A finite magnitude is written
`k * 2^j` as R97 (a) does. -/
inductive ValueClass (F : FormatSpec) : Nat → XReal ℚ → Prop where
  | infinity (s : Bool) : ValueClass F (pack F s (ones F.E) 0) (.inf s)
  | nan (s : Bool) {m : Nat} (hm0 : 0 < m) (hm : m < 2 ^ F.M) : ValueClass F (pack F s (ones F.E) m) .nan
  | zero (s : Bool) : ValueClass F (pack F s 0 0) (.zero s)
  | subnormal (s : Bool) {m : Nat} (hm0 : 0 < m) (hm : m < 2 ^ F.M) :
      ValueClass F (pack F s 0 m) (.fin s (m * 2 ^ (1 - F.B - F.M)))
  | normal (s : Bool) {e m : Nat} (he0 : 0 < e) (he : e < ones F.E) (hm : m < 2 ^ F.M) :
      ValueClass F (pack F s e m) (.fin s ((2 ^ F.M + m) * 2 ^ (e - F.B - F.M)))

theorem ones_pos {F : FormatSpec} (hF : F.valid = true) : 0 < ones F.E := one_le_ones (valid_iff.1 hF).2.1

/-- A word of a class has the value of the class. -/
theorem ValueClass.val_eq {F : FormatSpec} (hF : F.valid = true) {w : Nat} {x : XReal ℚ} (h : ValueClass F w x) :
    Exact.val F w = x := by
  have hones : ones F.E < 2 ^ F.E := le_ones_iff.1 le_rfl
  have hones0 : 0 ≠ ones F.E := (ones_pos hF).ne
  have hM : 0 < 2 ^ F.M := Nat.two_pow_pos _
  cases h with
  | infinity s => simp [Exact.val, split_pack hF s hones hM]
  | nan s hm0 hm => simp [Exact.val, split_pack hF s hones hm, hm0.ne']
  | zero s => simp [Exact.val, split_pack hF s (Nat.two_pow_pos _) hM, hones0]
  | @subnormal s m hm0 hm =>
    have hexp : 1 - F.B - F.M = -(F.B - 1 + F.M) := by ring
    simp [Exact.val, split_pack hF s (Nat.two_pow_pos _) hm, hones0, hm0.ne', hexp]
  | @normal s e m he0 he hm =>
    simp only [Exact.val, split_pack hF s (he.trans hones) hm, if_neg he.ne, if_neg he0.ne']
    congr 1
    rw [zpow_sub₀ two_ne_zero (e - F.B : ℤ), zpow_natCast]
    field_simp

/-- Every choice of the three fields is in one of the five classes. -/
theorem exists_valueClass_pack (F : FormatSpec) (s : Bool) {e m : Nat} (he : e ≤ ones F.E) (hm : m < 2 ^ F.M) :
    ∃ x, ValueClass F (pack F s e m) x := by
  rcases he.eq_or_lt with rfl | he
  · rcases m.eq_zero_or_pos with rfl | hm0
    · exact ⟨_, .infinity s⟩
    · exact ⟨_, .nan s hm0 hm⟩
  · rcases e.eq_zero_or_pos with rfl | he0
    · rcases m.eq_zero_or_pos with rfl | hm0
      · exact ⟨_, .zero s⟩
      · exact ⟨_, .subnormal s hm0 hm⟩
    · exact ⟨_, .normal s he0 he hm⟩

/-- The five classes are exhaustive: every word of a format is in the class of its value (R96). -/
theorem valueClass_val {F : FormatSpec} (hF : F.valid = true) {w : Nat} (hw : w < 2 ^ F.T) : ValueClass F w (Exact.val F w) := by
  have hfields := exists_valueClass_pack F (split F w).sign (e := (split F w).expf) (m := (split F w).manf)
    (le_ones_iff.2 (Nat.mod_lt _ (Nat.two_pow_pos _))) (Nat.mod_lt _ (Nat.two_pow_pos _))
  rw [pack_split hF hw] at hfields
  obtain ⟨x, hx⟩ := hfields
  rwa [hx.val_eq hF]

end Sys2Proof.Machine
end

section
/-! PROOFS. The field word orders the finite magnitudes (R97 (c)): each is a number of steps of the least positive value, and that
number grows with the field word. -/
namespace Sys2Proof.Machine

/-- The magnitude of the finite word with field word `u`, counted in steps of `2^(1-B-M)`, the least positive value. -/
def steps (F : FormatSpec) (u : Nat) : Nat :=
  if u / 2 ^ F.M = 0 then u % 2 ^ F.M else (2 ^ F.M + u % 2 ^ F.M) * 2 ^ (u / 2 ^ F.M - 1)

/-- The field word of a word is its exponent field and its mantissa field (R64). -/
theorem fieldWord_eq (F : FormatSpec) (w : Nat) : w % 2 ^ (F.E + F.M) = (split F w).expf * 2 ^ F.M + (split F w).manf := by
  rw [add_comm, pow_add, Nat.mod_mul, add_comm, mul_comm]
  rfl

theorem fieldWord_pack {F : FormatSpec} (hF : F.valid = true) (s : Bool) {e m : Nat} (he : e < 2 ^ F.E) (hm : m < 2 ^ F.M) :
    pack F s e m % 2 ^ (F.E + F.M) = e * 2 ^ F.M + m := by
  rw [fieldWord_eq, split_pack hF s he hm]

theorem steps_subnormal {F : FormatSpec} {m : Nat} (hm : m < 2 ^ F.M) : steps F m = m := by
  rw [steps, if_pos (Nat.div_eq_of_lt hm), Nat.mod_eq_of_lt hm]

theorem steps_normal {F : FormatSpec} {e m : Nat} (he : 0 < e) (hm : m < 2 ^ F.M) :
    steps F (e * 2 ^ F.M + m) = (2 ^ F.M + m) * 2 ^ (e - 1) := by
  obtain ⟨hdiv, hmod⟩ := (Nat.div_mod_unique (d := e) (Nat.two_pow_pos F.M)).2 ⟨Nat.add_comm m _, hm⟩
  rw [mul_comm] at hdiv hmod
  rw [steps, hdiv, hmod, if_neg he.ne']

/-- The next field word has the next mantissa, or, past the last one, mantissa 0 under the next exponent. -/
theorem steps_lt_steps_succ (F : FormatSpec) (u : Nat) : steps F u < steps F (u + 1) := by
  have hM : 0 < 2 ^ F.M := Nat.two_pow_pos _
  obtain ⟨e, m, hm, rfl⟩ : ∃ e m, m < 2 ^ F.M ∧ u = e * 2 ^ F.M + m :=
    ⟨u / 2 ^ F.M, u % 2 ^ F.M, Nat.mod_lt _ hM, (Nat.div_add_mod' _ _).symm⟩
  by_cases hlast : m + 1 < 2 ^ F.M
  · rcases e.eq_zero_or_pos with rfl | he
    · rw [zero_mul, zero_add, steps_subnormal hm, steps_subnormal hlast]
      exact m.lt_succ_self
    · rw [add_assoc, steps_normal he hm, steps_normal he hlast]
      exact Nat.mul_lt_mul_of_pos_right (by omega) (Nat.two_pow_pos _)
  · have hcarry : e * 2 ^ F.M + m + 1 = (e + 1) * 2 ^ F.M + 0 := by rw [add_one_mul]; omega
    rw [hcarry, steps_normal e.succ_pos hM, add_zero, Nat.succ_sub_one]
    rcases e.eq_zero_or_pos with rfl | he
    · rw [zero_mul, zero_add, steps_subnormal hm]
      omega
    · rw [steps_normal he hm]
      calc (2 ^ F.M + m) * 2 ^ (e - 1) < (2 ^ F.M * 2) * 2 ^ (e - 1) :=
            Nat.mul_lt_mul_of_pos_right (by omega) (Nat.two_pow_pos _)
        _ = 2 ^ F.M * 2 ^ e := by rw [mul_assoc, ← pow_succ', Nat.sub_add_cancel he]

theorem steps_strictMono (F : FormatSpec) : StrictMono (steps F) := strictMono_nat_of_lt_succ (steps_lt_steps_succ F)

theorem steps_eq_zero_iff {F : FormatSpec} {u : Nat} : steps F u = 0 ↔ u = 0 := by
  have hzero : steps F 0 = 0 := steps_subnormal (Nat.two_pow_pos _)
  rw [← (steps_strictMono F).injective.eq_iff (a := u), hzero]

/-- A finite word has a field word below that of infinity, and the magnitude its field word counts. -/
theorem magnitude_eq_steps {F : FormatSpec} (hF : F.valid = true) {w : Nat} {v : ℚ} (hw : w < 2 ^ F.T)
    (hv : (Exact.val F w).magnitude = some v) :
    w % 2 ^ (F.E + F.M) < ones F.E * 2 ^ F.M ∧ v = steps F (w % 2 ^ (F.E + F.M)) * 2 ^ (1 - F.B - F.M) := by
  have hones : ones F.E < 2 ^ F.E := le_ones_iff.1 le_rfl
  have hE : 0 < ones F.E := ones_pos hF
  have hM : 0 < 2 ^ F.M := Nat.two_pow_pos _
  have hclass := valueClass_val hF hw
  generalize Exact.val F w = x at hclass hv
  cases hclass with
  | infinity s => cases hv
  | nan s hm0 hm => cases hv
  | zero s =>
    cases hv
    rw [fieldWord_pack hF s (Nat.two_pow_pos _) hM]
    simp [steps_subnormal hM, hE]
  | subnormal s hm0 hm =>
    cases hv
    rw [fieldWord_pack hF s (Nat.two_pow_pos _) hm, zero_mul, zero_add, steps_subnormal hm]
    exact ⟨hm.trans_le (Nat.le_mul_of_pos_left _ hE), rfl⟩
  | @normal s e m he0 he hm =>
    cases hv
    rw [fieldWord_pack hF s (he.trans hones) hm, steps_normal he0 hm]
    refine ⟨?_, ?_⟩
    · calc e * 2 ^ F.M + m < (e + 1) * 2 ^ F.M := by rw [add_one_mul]; omega
        _ ≤ ones F.E * 2 ^ F.M := Nat.mul_le_mul_right _ he
    · have hexp : (e - F.B - F.M : ℤ) = ((e - 1 : ℕ) : ℤ) + (1 - F.B - F.M) := by omega
      rw [hexp, zpow_add₀ two_ne_zero, zpow_natCast]
      push_cast
      ring

/-- Settles O15: a finite magnitude is `steps` of its field word times the least positive value, and `steps` is strictly
monotone. -/
theorem fieldWordOrdersMagnitudes : Obligations.FieldWordOrdersMagnitudes := by
  intro F w₁ w₂ v₁ v₂ hF hw₁ hw₂ hv₁ hv₂
  have hunit : (0 : ℚ) < 2 ^ (1 - F.B - F.M) := two_zpow_pos _
  obtain ⟨-, rfl⟩ := magnitude_eq_steps hF hw₁ hv₁
  obtain ⟨-, rfl⟩ := magnitude_eq_steps hF hw₂ hv₂
  constructor
  · rw [mul_lt_mul_iff_left₀ hunit, Nat.cast_lt, (steps_strictMono F).lt_iff_lt]
  · rw [mul_eq_zero_iff_right hunit.ne', Nat.cast_eq_zero, steps_eq_zero_iff]

end Sys2Proof.Machine
end

section
/-! PROOFS. The range of a format (R97 (d)), and the all-ones exponent (R100). -/
namespace Sys2Proof.Machine

/-- The word of field word 1 has the least positive value. -/
theorem val_one {F : FormatSpec} (hF : F.valid = true) : Exact.val F 1 = .fin false (2 ^ (1 - F.B - (F.M : ℤ))) := by
  have hM : 1 < 2 ^ F.M := Nat.one_lt_two_pow (by have := (valid_iff.1 hF).1; omega)
  have h := (ValueClass.subnormal (F := F) false one_pos hM).val_eq hF
  simpa [pack] using h

/-- The word of exponent 1 and mantissa 0 has the least normal value. -/
theorem val_two_pow {F : FormatSpec} (hF : F.valid = true) (hE : 1 < ones F.E) :
    Exact.val F (2 ^ F.M) = .fin false (2 ^ (1 - F.B)) := by
  have h := (ValueClass.normal (F := F) false one_pos hE (Nat.two_pow_pos _)).val_eq hF
  have hexp : (2 : ℚ) ^ F.M * 2 ^ (1 - F.B - F.M) = 2 ^ (1 - F.B) := by
    rw [← zpow_natCast, ← zpow_add₀ two_ne_zero]
    congr 1
    ring
  simpa [pack, hexp] using h

/-- The word below infinity's has the largest finite value. -/
theorem val_largest {F : FormatSpec} (hF : F.valid = true) (hE : 1 < ones F.E) :
    Exact.val F ((ones F.E - 1) * 2 ^ F.M + ones F.M) =
      .fin false ((2 - 1 / 2 ^ F.M) * 2 ^ ((ones F.E : ℤ) - 1 - F.B)) := by
  have h := (ValueClass.normal (F := F) (e := ones F.E - 1) (m := ones F.M) false (by omega) (by omega)
    (le_ones_iff.1 le_rfl)).val_eq hF
  have hword : pack F false (ones F.E - 1) (ones F.M) = (ones F.E - 1) * 2 ^ F.M + ones F.M := by simp [pack]
  have hmant : (ones F.M : ℚ) = 2 ^ F.M - 1 := by simp [ones]
  rw [← hword, h, hmant, Nat.cast_sub hE.le, Nat.cast_one, zpow_sub₀ two_ne_zero _ (F.M : ℤ), zpow_natCast]
  congr 1
  field_simp
  ring

theorem one_lt_ones {n : Nat} (hn : 2 ≤ n) : 1 < ones n := by
  have hpow : 2 ^ 2 ≤ 2 ^ n := Nat.pow_le_pow_right two_pos hn
  unfold ones
  omega

/-- Finite magnitudes compare as their field words do, less or equal. -/
theorem magnitude_le_iff {F : FormatSpec} {w₁ w₂ : Nat} {v₁ v₂ : ℚ} (hF : F.valid = true) (hw₁ : w₁ < 2 ^ F.T)
    (hw₂ : w₂ < 2 ^ F.T) (hv₁ : (Exact.val F w₁).magnitude = some v₁) (hv₂ : (Exact.val F w₂).magnitude = some v₂) :
    v₁ ≤ v₂ ↔ w₁ % 2 ^ (F.E + F.M) ≤ w₂ % 2 ^ (F.E + F.M) := by
  rw [← not_lt, ← not_lt, (fieldWordOrdersMagnitudes F w₂ w₁ v₂ v₁ hF hw₂ hw₁ hv₂ hv₁).1]

theorem pos_of_val_eq_fin {F : FormatSpec} (hF : F.valid = true) {w : Nat} {s : Bool} {a : ℚ} (hw : w < 2 ^ F.T)
    (ha : Exact.val F w = .fin s a) : 0 < a := by
  have hclass := valueClass_val hF hw
  rw [ha] at hclass
  cases hclass with
  | subnormal _ hm0 hm => exact mul_pos (by exact_mod_cast hm0) (two_zpow_pos _)
  | normal _ he0 he hm => exact mul_pos (by positivity) (two_zpow_pos _)

/-- The field word of a non-zero finite value is at least 1, and below infinity's. -/
theorem fieldWord_bounds {F : FormatSpec} (hF : F.valid = true) {w : Nat} {s : Bool} {a : ℚ} (hw : w < 2 ^ F.T)
    (ha : Exact.val F w = .fin s a) : 1 ≤ w % 2 ^ (F.E + F.M) ∧ w % 2 ^ (F.E + F.M) < ones F.E * 2 ^ F.M := by
  have hmag : (Exact.val F w).magnitude = some a := congrArg XReal.magnitude ha
  have hzero := (fieldWordOrdersMagnitudes F w w a a hF hw hw hmag hmag).2
  refine ⟨Nat.one_le_iff_ne_zero.2 fun h => ?_, (magnitude_eq_steps hF hw hmag).1⟩
  exact (pos_of_val_eq_fin hF hw ha).ne' (hzero.2 h)

/-- Settles O16: the three words have these values, and the field word of a non-zero finite value lies between those of the first
and of the last, so its magnitude does too. -/
theorem formatRangeExtremes : Obligations.FormatRangeExtremes := by
  intro F hF hE
  have hones : 1 < ones F.E := one_lt_ones hE
  refine ⟨val_one hF, val_two_pow hF hones, val_largest hF hones, fun w s a hw ha => ?_⟩
  have hmag : (Exact.val F w).magnitude = some a := congrArg XReal.magnitude ha
  have hmagFirst := congrArg XReal.magnitude (val_one hF)
  have hmagLast := congrArg XReal.magnitude (val_largest hF hones)
  obtain ⟨hlow, hhigh⟩ := fieldWord_bounds hF hw ha
  have hlast : (ones F.E - 1) * 2 ^ F.M + ones F.M + 1 = ones F.E * 2 ^ F.M := by
    have hM : ones F.M + 1 = 2 ^ F.M := Nat.sub_add_cancel Nat.one_le_two_pow
    rw [add_assoc, hM, ← add_one_mul, Nat.sub_add_cancel hones.le]
  have hwidth : ones F.E * 2 ^ F.M ≤ 2 ^ (F.E + F.M) := by
    rw [pow_add]
    exact Nat.mul_le_mul_right _ (le_ones_iff.1 le_rfl).le
  have hT : 2 ^ (F.E + F.M) ≤ 2 ^ F.T := Nat.pow_le_pow_right two_pos (by have := valid_iff.1 hF; omega)
  constructor
  · rwa [magnitude_le_iff hF (by omega) hw hmagFirst hmag, Nat.mod_eq_of_lt (by omega)]
  · rw [magnitude_le_iff hF hw (by omega) hmag hmagLast, Nat.mod_eq_of_lt (a := _ + _) (by omega)]
    omega

/-- The largest finite value of fp8-e4m3 is 240 (R100). -/
theorem fp8e4m3_largest : (2 - 1 / 2 ^ fp8e4m3.M) * 2 ^ ((ones fp8e4m3.E : ℤ) - 1 - fp8e4m3.B) = (240 : ℚ) := by
  norm_num [fp8e4m3, ones]

/-- A finite value of fp8-e4m3 is a zero, or is at most the largest one. -/
theorem fp8e4m3_magnitude_le {w : Nat} {v : ℚ} (hw : w < 2 ^ 8) (hv : (Exact.val fp8e4m3 w).magnitude = some v) : v ≤ 240 := by
  cases hx : Exact.val fp8e4m3 w with
  | nan => rw [hx] at hv; cases hv
  | inf s => rw [hx] at hv; cases hv
  | zero s => rw [hx] at hv; cases hv; norm_num
  | fin s a =>
    obtain rfl : a = v := by rw [hx] at hv; exact Option.some.inj hv
    obtain ⟨-, -, -, hrange⟩ := formatRangeExtremes fp8e4m3 (by decide) (by decide)
    rw [← fp8e4m3_largest]
    exact (hrange w s a hw hx).2

/-- Settles O17: the exponent field all ones is the first case of R96, whatever the format; the bound 240 is the range of R97 (d). -/
theorem allOnesExponentIsInfinityOrNaN : Obligations.AllOnesExponentIsInfinityOrNaN := by
  refine ⟨fun F _ w _ hw => if_pos hw, ?_, fun w v => fp8e4m3_magnitude_le, ?_, ?_, ?_⟩
  · rw [← fp8e4m3_largest]
    exact val_largest (F := fp8e4m3) (by decide) (by decide)
  · exact (ValueClass.infinity (F := fp8e4m3) false).val_eq (by decide)
  · exact (ValueClass.infinity (F := fp8e4m3) true).val_eq (by decide)
  · decide +kernel

end Sys2Proof.Machine
end

section
/-! PROOFS. The encoder inverts the value (R134), and every value of the catalog is a binary64 value (R99, R153). -/
namespace Sys2Proof.Machine

theorem Exact.rhaz_natCast (n : Nat) : Exact.rhaz n = n := by
  rw [Exact.rhaz, add_comm, Nat.floor_add_natCast (by norm_num)]
  norm_num

/-- A subnormal value is `m` steps of `2^(1-B-M)`: the encoder's subnormal branch finds `m` again (R128). -/
theorem Exact.encFinite_subnormal {F : FormatSpec} (s : Bool) {m : Nat} (hm0 : 0 < m) (hm : m < 2 ^ F.M) :
    Exact.encFinite F s (m * 2 ^ (1 - F.B - F.M)) = pack F s 0 m := by
  have hstep : (0 : ℚ) < 2 ^ (1 - F.B - F.M) := two_zpow_pos _
  have ha : (0 : ℚ) < m * 2 ^ (1 - F.B - F.M) := mul_pos (by exact_mod_cast hm0) hstep
  have hlog : Int.log 2 ((m : ℚ) * 2 ^ (1 - F.B - F.M)) + F.B ≤ 0 := by
    have hlt : (m : ℚ) * 2 ^ (1 - F.B - F.M) < 2 ^ (1 - F.B) := by
      calc (m : ℚ) * 2 ^ (1 - F.B - F.M) < 2 ^ F.M * 2 ^ (1 - F.B - F.M) := mul_lt_mul_of_pos_right (by exact_mod_cast hm) hstep
        _ = 2 ^ (1 - F.B) := by rw [← zpow_natCast, ← zpow_add₀ two_ne_zero]; congr 1; ring
    have := (Int.lt_zpow_iff_log_lt one_lt_two ha).1 (by exact_mod_cast hlt)
    omega
  have hq : (m : ℚ) * 2 ^ (1 - F.B - F.M) * 2 ^ (F.B - 1 + F.M : ℤ) = m := by
    rw [mul_assoc, ← zpow_add₀ two_ne_zero]
    simp
  simp only [Exact.encFinite, if_pos hlog, hq, Exact.rhaz_natCast, if_neg hm.ne]

/-- A normal value is `2^(e-B)` times `1 + m / 2^M`: the encoder's normal branch finds `e` and `m` again (R125). -/
theorem Exact.encFinite_normal {F : FormatSpec} (s : Bool) {e m : Nat} (he0 : 0 < e) (he : e < ones F.E) (hm : m < 2 ^ F.M) :
    Exact.encFinite F s ((2 ^ F.M + m) * 2 ^ (e - F.B - F.M)) = pack F s e m := by
  have hpow : (2 : ℚ) ^ (e - F.B) = 2 ^ F.M * 2 ^ (e - F.B - F.M) := by
    rw [← zpow_natCast, ← zpow_add₀ two_ne_zero]; congr 1; ring
  have hstep : (0 : ℚ) < 2 ^ (e - F.B - F.M) := two_zpow_pos _
  have hlog : Int.log 2 ((2 ^ F.M + m : ℚ) * 2 ^ (e - F.B - F.M)) = e - F.B := by
    refine log_eq_of_bounds ?_ ?_
    · rw [hpow]
      exact mul_le_mul_of_nonneg_right (le_add_of_nonneg_right m.cast_nonneg) hstep.le
    · rw [zpow_add_one₀ two_ne_zero, hpow, mul_right_comm, mul_two]
      have hmQ : (m : ℚ) < 2 ^ F.M := by exact_mod_cast hm
      exact mul_lt_mul_of_pos_right (by linarith) hstep
  have hq : ((2 ^ F.M + m) * 2 ^ (e - F.B - F.M) / 2 ^ (e - F.B) - 1 : ℚ) * 2 ^ F.M = m := by
    rw [hpow]
    field_simp
    ring
  have hbe : (e : ℤ) - F.B + F.B = e := by ring
  simp only [Exact.encFinite, hlog, hq, hbe, Exact.rhaz_natCast, Int.toNat_natCast, if_neg hm.ne]
  rw [if_neg (by omega), if_neg (by omega)]

/-- The encoder takes a value that is not NaN to the one word that has it (R134). -/
theorem ValueClass.enc_eq {F : FormatSpec} {w : Nat} {x : XReal ℚ} (h : ValueClass F w x) (hx : x ≠ .nan) : Exact.enc F x = w := by
  cases h with
  | infinity s => rfl
  | nan s hm0 hm => exact absurd rfl hx
  | zero s => rfl
  | subnormal s hm0 hm => exact Exact.encFinite_subnormal s hm0 hm
  | normal s he0 he hm => exact Exact.encFinite_normal s he0 he hm

/-- R134 as an equation, on the words that are not NaN. -/
theorem Exact.enc_val {F : FormatSpec} (hF : F.valid = true) {w : Nat} (hw : w < 2 ^ F.T) (hx : Exact.val F w ≠ .nan) :
    Exact.enc F (Exact.val F w) = w := (valueClass_val hF hw).enc_eq hx

/-- A format has every magnitude `k * 2^j` with at most `M + 1` significant bits, `j` no less than in its least positive value, and
`2^(j+M)` within the exponent range. -/
theorem exists_valueClass_fin (G : FormatSpec) (s : Bool) {k : Nat} {j : ℤ} (hk0 : 0 < k) (hk : k < 2 ^ (G.M + 1))
    (hmin : 1 - G.B - G.M ≤ j) (hmax : j + G.B + G.M < ones G.E) : ∃ d, ValueClass G d (.fin s (k * 2 ^ j)) := by
  have hlo : 2 ^ Nat.log2 k ≤ k := Nat.log2_self_le hk0.ne'
  have hhi : k < 2 ^ (Nat.log2 k + 1) := Nat.lt_log2_self
  have hlog : Nat.log2 k ≤ G.M := Nat.lt_succ_iff.1 ((Nat.log2_lt hk0.ne').2 hk)
  generalize Nat.log2 k = n at hlo hhi hlog
  by_cases hsub : n + j + G.B ≤ 0
  · obtain ⟨t, ht⟩ := Int.eq_ofNat_of_zero_le (sub_nonneg.2 hmin)
    obtain rfl : j = t + (1 - G.B - G.M) := by omega
    have hm : k * 2 ^ t < 2 ^ G.M := by
      calc k * 2 ^ t < 2 ^ (n + 1) * 2 ^ t := Nat.mul_lt_mul_of_pos_right hhi (Nat.two_pow_pos _)
        _ = 2 ^ (n + 1 + t) := (pow_add _ _ _).symm
        _ ≤ 2 ^ G.M := Nat.pow_le_pow_right two_pos (by omega)
    have hval : (k : ℚ) * 2 ^ ((t : ℤ) + (1 - G.B - G.M)) = (k * 2 ^ t : ℕ) * 2 ^ (1 - G.B - G.M) := by
      rw [zpow_add₀ two_ne_zero, zpow_natCast]
      push_cast
      ring
    rw [hval]
    exact ⟨_, .subnormal s (by positivity) hm⟩
  · obtain ⟨e, he⟩ := Int.eq_ofNat_of_zero_le (not_le.1 hsub).le
    obtain ⟨p, hp⟩ := Nat.exists_eq_add_of_le hlog
    have hm : (k - 2 ^ n) * 2 ^ p < 2 ^ G.M := by
      rw [hp, pow_add]
      exact Nat.mul_lt_mul_of_pos_right (by rw [pow_succ] at hhi; omega) (Nat.two_pow_pos _)
    have hval : (k : ℚ) * 2 ^ j = (2 ^ G.M + ((k - 2 ^ n) * 2 ^ p : ℕ)) * 2 ^ (e - G.B - G.M) := by
      obtain rfl : j = p + (e - G.B - G.M) := by omega
      rw [zpow_add₀ two_ne_zero, zpow_natCast, hp, pow_add]
      push_cast [Nat.cast_sub hlo]
      ring
    rw [hval]
    exact ⟨_, .normal s (by omega) (by omega) hm⟩

/-- A format with no more mantissa bits, and with its least positive value and its largest exponent within the other format's, has
only values of the other format (R99, D26). -/
theorem ValueClass.widen {F G : FormatSpec} (hE : 1 < ones F.E) (hM : F.M ≤ G.M)
    (hmin : 1 - G.B - G.M ≤ 1 - F.B - F.M) (hmax : ones F.E - F.B - F.M ≤ ones G.E - G.B - G.M) {w : Nat} {x : XReal ℚ}
    (h : ValueClass F w x) : ∃ d, ValueClass G d x := by
  have hpow : 2 ^ F.M ≤ 2 ^ G.M := Nat.pow_le_pow_right two_pos hM
  cases h with
  | infinity s => exact ⟨_, .infinity s⟩
  | nan s hm0 hm => exact ⟨_, .nan s hm0 (hm.trans_le hpow)⟩
  | zero s => exact ⟨_, .zero s⟩
  | subnormal s hm0 hm => exact exists_valueClass_fin G s hm0 (by omega) hmin (by omega)
  | @normal s e m he0 he hm =>
    have hk := exists_valueClass_fin G s (k := 2 ^ F.M + m) (j := e - F.B - F.M) (by positivity) (by omega) (by omega) (by omega)
    push_cast at hk
    exact hk

/-- The premises of `ValueClass.widen` for each format of the catalog and binary64 (R99). -/
theorem specOf_within_fp64 (f : Format) :
    1 < ones (specOf f).E ∧ (specOf f).M ≤ fp64.M ∧ 1 - fp64.B - fp64.M ≤ 1 - (specOf f).B - (specOf f).M ∧
      ones (specOf f).E - (specOf f).B - (specOf f).M ≤ ones fp64.E - fp64.B - fp64.M := by
  cases f <;> decide

/-- Every value of a catalog format is the value of a binary64 word (R99). -/
theorem exists_fp64_word (f : Format) {w : Nat} (hw : w < 2 ^ (specOf f).T) : ∃ d, ValueClass fp64 d (Exact.val (specOf f) w) := by
  obtain ⟨hE, hM, hmin, hmax⟩ := specOf_within_fp64 f
  exact (valueClass_val (specOf_valid f) hw).widen hE hM hmin hmax

/-- Settles O38: some binary64 word has the value, and any that has is the encoder's. -/
theorem decodeIsExact : Obligations.DecodeIsExact := by
  intro F hF w hw hx
  obtain ⟨f, rfl⟩ := mem_catalog hF
  have hvalid : fp64.valid = true := specOf_valid .fp64
  rw [enc_val_eq_exact hvalid]
  constructor
  · obtain ⟨d, hd⟩ := exists_fp64_word f hw
    rw [hd.enc_eq hx, hd.val_eq hvalid]
  · intro d hd hval
    rw [← hval] at hx ⊢
    exact (Exact.enc_val hvalid hd hx).symm

end Sys2Proof.Machine
end

section
/-! PROOFS. The binary64 commands (R101). -/
namespace Sys2Proof.Machine

/-- Every command answers the rules' response of its operation at its format. -/
theorem exec_eq_responseOf (i : Instr) (s : State) :
    exec i s = .next { s with response := some (Exact.responseOf i.operation (specOf i.format) s.request) } := by
  rw [exec_eq_respond, respond, answerOf_onPorts i.operation (specOf_valid i.format)]

theorem decodeResponse_of_wellFormed {F : FormatSpec} {r : Request} (h : wellFormedFor F r.aWord r.aLen = true) :
    Exact.decodeResponse F r = Exact.wordResponse (Exact.enc fp64 (Exact.val F r.aWord.toNat)) 64 := by
  rw [Exact.decodeResponse, malformed_eq_not_wellFormedFor, h]
  rfl

/-- Encoding a binary64 word's value gives the word back, or the NaN word of R121 (R101). -/
theorem enc_val_fp64 {w : Nat} (hw : w < 2 ^ 64) :
    Exact.enc fp64 (Exact.val fp64 w) = if Exact.val fp64 w = .nan then 0x7FF8000000000000 else w := by
  split_ifs with hx
  · rw [hx]
    rfl
  · exact Exact.enc_val (F := fp64) (by decide) hw hx

/-- Settles O41: both commands answer the encoder's word of the operand's value. -/
theorem binary64CommandsAreIdentity : Obligations.Binary64CommandsAreIdentity := by
  intro s
  have hw : s.request.aWord.toNat < 2 ^ 64 := s.request.aWord.isLt
  dsimp only
  rw [← enc_val_fp64 hw]
  constructor
  · exact exec_eq_responseOf .encodeFp64 s
  · intro hlen
    have hwf : wellFormedFor fp64 s.request.aWord s.request.aLen = true := wellFormedFor_iff.2 ⟨by rw [hlen]; rfl, hw⟩
    rw [← decodeResponse_of_wellFormed hwf]
    exact exec_eq_responseOf .decodeFp64 s

end Sys2Proof.Machine
end

section
/-! PROOFS. The catalog (R92, R93). -/
namespace Sys2Proof.Machine

/-- Settles O13: a format code selects a member of the catalog, all of which meet the contract. -/
theorem catalogNumbersAreValid : Obligations.CatalogNumbersAreValid := by
  refine ⟨fun fmt F h => ?_, rfl, rfl, rfl, rfl, rfl, rfl, rfl, rfl⟩
  obtain ⟨f, rfl⟩ := mem_catalog (List.mem_of_getElem? h)
  exact valid_iff.1 (specOf_valid f)

end Sys2Proof.Machine
end

section
/-! PROOFS. ENCODE on the ports (R121, R122, R123, R130, R131). -/
namespace Sys2Proof.Machine

/-- Settles O18: the rules' response of the operation ENCODE at each of the six formats. -/
theorem encodeAnswersExactWord : Obligations.EncodeAnswersExactWord := fun s =>
  ⟨exec_eq_responseOf .encodeFp32 s, exec_eq_responseOf .encodeFp64 s, exec_eq_responseOf .encodeFp16 s,
    exec_eq_responseOf .encodeBf16 s, exec_eq_responseOf .encodeFp8e4m3 s, exec_eq_responseOf .encodeNvfp4e2m1 s⟩

/-- Settles O19: the response of ENCODE is a function of the format and of `a_word`. -/
theorem encodeIgnoresLengthTag : Obligations.EncodeIgnoresLengthTag := by
  intro s i len hi
  have hop : i.operation = .encode := by
    simp only [List.mem_cons, List.not_mem_nil, or_false] at hi
    rcases hi with rfl | rfl | rfl | rfl | rfl | rfl <;> rfl
  refine ⟨Exact.encodeResponse (specOf i.format) s.request, rfl, ?_, ?_⟩
  · rw [exec_eq_responseOf, hop]
    rfl
  · rw [exec_eq_responseOf, hop]
    rfl

/-- The exponent field of a binary64 word, as the slice of the port (R64). -/
theorem split_fp64_expf (w : Word) : (split fp64 w.toNat).expf = (w.extractLsb' 52 11).toNat := by
  rw [BitVec.extractLsb'_toNat, Nat.shiftRight_eq_div_pow]
  rfl

/-- The mantissa field of a binary64 word, as the slice of the port (R64). -/
theorem split_fp64_manf (w : Word) : (split fp64 w.toNat).manf = (w.extractLsb' 0 52).toNat := by
  rw [BitVec.extractLsb'_toNat, Nat.shiftRight_zero]
  rfl

theorem val_fp64_nan {w : Word} (hexp : w.extractLsb' 52 11 = 0x7FF#11) (hman : w.extractLsb' 0 52 ≠ 0#52) :
    Exact.val fp64 w.toNat = .nan := by
  have hexpf : (split fp64 w.toNat).expf = ones fp64.E := by rw [split_fp64_expf, hexp]; rfl
  have hmanf : (split fp64 w.toNat).manf ≠ 0 := by
    rw [split_fp64_manf]
    exact fun h => hman (BitVec.eq_of_toNat_eq h)
  simp only [Exact.val, if_pos hexpf, if_neg hmanf]

/-- Settles O20: the operand's value is NaN, and the six words are `Exact.enc` of it. -/
theorem encodeNaNIsCanonical : Obligations.EncodeNaNIsCanonical := by
  refine ⟨fun _ _ => rfl, fun s hexp hman => ?_⟩
  have hanswers := encodeAnswersExactWord s
  rw [val_fp64_nan hexp hman] at hanswers
  exact hanswers

theorem val_fp64_infinity {w : Word} {b : Bool} (h : w.toNat = pack fp64 b (ones fp64.E) 0) :
    Exact.val fp64 w.toNat = .inf b := by
  rw [h]
  exact (ValueClass.infinity b).val_eq (by decide)

/-- Settles O21: the two operands are binary64's infinities, and the six words are `Exact.enc` of each. -/
theorem encodeInfinityWords : Obligations.EncodeInfinityWords := by
  refine ⟨fun _ _ _ => rfl, fun s hs => ?_, fun s hs => ?_⟩
  · have hanswers := encodeAnswersExactWord s
    rw [val_fp64_infinity (b := false) (by rw [hs]; decide)] at hanswers
    exact hanswers
  · have hanswers := encodeAnswersExactWord s
    rw [val_fp64_infinity (b := true) (by rw [hs]; decide)] at hanswers
    exact hanswers

theorem val_fp64_zero {w : Word} (h : w.extractLsb' 0 63 = 0#63) : Exact.val fp64 w.toNat = .zero (w.getLsbD 63) := by
  have hlow : w.toNat % 2 ^ 63 = 0 := by
    rw [← Nat.shiftRight_zero (n := w.toNat), ← BitVec.extractLsb'_toNat, h]
    rfl
  have hexpf : (split fp64 w.toNat).expf = 0 := by
    change w.toNat / 2 ^ 52 % 2 ^ 11 = 0
    omega
  have hmanf : (split fp64 w.toNat).manf = 0 := by
    change w.toNat % 2 ^ 52 = 0
    omega
  have hones : 0 ≠ ones fp64.E := by decide
  simp only [Exact.val, hexpf, hmanf, if_neg hones, if_true]
  rfl

/-- The sign bit of a valid format is bit `E + M`, the top one of `T` (R64, R90). -/
theorem total_sub_one {F : FormatSpec} (hF : F.valid = true) : F.T - 1 = F.E + F.M := by
  obtain ⟨-, -, hsign, hT⟩ := valid_iff.1 hF
  omega

/-- The two zero words (R123). -/
theorem enc_zero {F : FormatSpec} (hF : F.valid = true) (b : Bool) : Exact.enc F (.zero b) = if b then 2 ^ (F.T - 1) else 0 := by
  rw [total_sub_one hF]
  cases b <;> simp [Exact.enc, pack]

/-- Settles O22: the operand's value is the zero of its top bit's sign. -/
theorem encodeZeroKeepsSign : Obligations.EncodeZeroKeepsSign := by
  refine ⟨fun F hF => ⟨enc_zero hF false, enc_zero hF true, fun _ => rfl⟩, fun s f hs => ?_⟩
  rw [← enc_zero (specOf_valid f), ← val_fp64_zero hs, exec_eq_responseOf, operation_ofParts, format_ofParts]
  rfl

/-- Settles O31: the machine computes the rules' functions, and those invert each other on every class but NaN's. -/
theorem encodeInvertsValue : Obligations.EncodeInvertsValue := by
  intro F w hF hw
  rw [enc_val_eq_exact hF]
  refine ⟨Exact.enc_val hF hw, fun hnan => ?_⟩
  rw [hnan]
  rfl

end Sys2Proof.Machine
end

section
/-! PROOFS. The exponent of a word's value, and its range over the binary64 operands (R132). -/
namespace Sys2Proof.Machine

theorem log2_two_pow_add {M m : Nat} (hm : m < 2 ^ M) : Nat.log2 (2 ^ M + m) = M := by
  rw [Nat.log2_eq_iff (by positivity), pow_succ]
  omega

/-- The exponent of a finite value, from the fields of its word (R132). -/
theorem flog2_of_val_eq_fin {F : FormatSpec} {w : Nat} {s : Bool} {a : Magnitude} (h : val F w = .fin s a) :
    (split F w).expf ≠ ones F.E ∧
      (((split F w).expf = 0 ∧ (split F w).manf ≠ 0 ∧ flog2 a = Nat.log2 (split F w).manf + (1 - F.B - F.M)) ∨
        ((split F w).expf ≠ 0 ∧ flog2 a = (split F w).expf - F.B)) := by
  unfold val at h
  dsimp only at h
  split_ifs at h with hones hman hexp hman <;> cases h
  · exact ⟨hones, .inl ⟨hexp, hman, rfl⟩⟩
  · refine ⟨hones, .inr ⟨hexp, ?_⟩⟩
    have hm : (split F w).manf < 2 ^ F.M := Nat.mod_lt _ (Nat.two_pow_pos _)
    rw [flog2, log2_two_pow_add hm]
    ring

/-- The biases of the catalog (R92). -/
theorem catalog_bias : ∀ F ∈ catalog, 1 ≤ F.B ∧ F.B ≤ 1023 := by decide

/-- Settles O29: the exponent field of a finite value is at most 2046, and a subnormal mantissa has 1 to 52 bits. -/
theorem operandExponentRanges : Obligations.OperandExponentRanges := by
  intro d s a _ hval
  obtain ⟨hones, hcases⟩ := flog2_of_val_eq_fin hval
  have hexp : (split fp64 d).expf < 2 ^ 11 := Nat.mod_lt _ (Nat.two_pow_pos _)
  have hman : (split fp64 d).manf < 2 ^ 52 := Nat.mod_lt _ (Nat.two_pow_pos _)
  have htop : ones fp64.E = 2047 := rfl
  have hB : fp64.B = 1023 := rfl
  have hM : fp64.M = 52 := rfl
  rw [htop] at hones
  rw [hB, hM] at hcases
  have hrange : -1074 ≤ flog2 a ∧ flog2 a ≤ 1023 := by
    rcases hcases with ⟨-, hman0, hlog⟩ | ⟨hexp0, hlog⟩
    · have := (Nat.log2_lt hman0).2 hman
      omega
    · omega
  refine ⟨?_, hrange.1, hrange.2, fun F hF => ?_⟩
  · rcases hcases with ⟨hexp0, -, hlog⟩ | ⟨hexp0, hlog⟩
    · rw [if_pos hexp0, hlog]
      ring
    · rw [if_neg hexp0, hlog]
  · have := catalog_bias F hF
    omega

end Sys2Proof.Machine
end

section
/-! PROOFS. The encoder rounds to the nearest field word (R133, R135): a magnitude is rounded as if the field words went on past
infinity's, and the result is cut at infinity's. -/
namespace Sys2Proof.Machine

/-- A magnitude counted in steps of `2^(1-B-M)`, the least positive value; `steps` counts the values of the format so. -/
def inSteps (F : FormatSpec) (a : ℚ) : ℚ := a * 2 ^ (F.B - 1 + F.M : ℤ)

/-- The values around the magnitude `a` are `2^(binade F a)` steps apart; 0 for the subnormal and the least normal ones. -/
def binade (F : FormatSpec) (a : ℚ) : Nat := (Int.log 2 a + F.B - 1).toNat

/-- The field word a magnitude rounds to, before the comparison with infinity's (R133). Its two branches are
`roundedFieldWord_of_subnormal` and `roundedFieldWord_of_normal`. -/
def roundedFieldWord (F : FormatSpec) (a : ℚ) : Nat := binade F a * 2 ^ F.M + Exact.rhaz (inSteps F a / 2 ^ binade F a)

theorem inSteps_nonneg (F : FormatSpec) {a : ℚ} (ha : 0 < a) : 0 ≤ inSteps F a := (mul_pos ha (two_zpow_pos _)).le

/-- Rounding is at most `n` below the midpoint of `n` and `n + 1`; the midpoint itself goes up (R126). -/
theorem Exact.rhaz_le_iff {y : ℚ} (hy : 0 ≤ y) {n : Nat} : Exact.rhaz y ≤ n ↔ y < n + 1 / 2 := by
  rw [Exact.rhaz, ← Nat.lt_succ_iff, Nat.floor_lt (by positivity), Nat.cast_succ]
  constructor <;> intro h <;> linarith

theorem Exact.rhaz_add_natCast {y : ℚ} (hy : 0 ≤ y) (n : Nat) : Exact.rhaz (y + n) = Exact.rhaz y + n := by
  rw [Exact.rhaz, add_right_comm, Nat.floor_add_natCast (by positivity)]
  rfl

/-- A magnitude in steps lies in its binade, which for the lowest one starts at 0. -/
theorem inSteps_binade (F : FormatSpec) {a : ℚ} (ha : 0 < a) :
    inSteps F a < 2 ^ (F.M + 1) * 2 ^ binade F a ∧ (binade F a = 0 ∨ 2 ^ F.M * 2 ^ binade F a ≤ inSteps F a) := by
  obtain ⟨hlo, hhi⟩ := log_bounds ha
  have hscale : (0 : ℚ) < 2 ^ (F.B - 1 + F.M : ℤ) := two_zpow_pos _
  have hn : binade F a = (Int.log 2 a + F.B - 1).toNat := rfl
  generalize Int.log 2 a = e at *
  generalize binade F a = n at *
  constructor
  · calc inSteps F a < 2 ^ (e + 1) * 2 ^ (F.B - 1 + F.M : ℤ) := mul_lt_mul_of_pos_right hhi hscale
      _ = 2 ^ (e + 1 + (F.B - 1 + F.M)) := (zpow_add₀ two_ne_zero _ _).symm
      _ ≤ 2 ^ ((F.M + 1 + n : ℕ) : ℤ) := zpow_le_zpow_right₀ one_le_two (by omega)
      _ = 2 ^ (F.M + 1) * 2 ^ n := by rw [zpow_natCast, pow_add]
  · refine n.eq_zero_or_pos.imp_right fun hpos => ?_
    calc (2 : ℚ) ^ F.M * 2 ^ n = 2 ^ ((F.M + n : ℕ) : ℤ) := by rw [zpow_natCast, pow_add]
      _ = 2 ^ (e + (F.B - 1 + F.M)) := by congr 1; omega
      _ = 2 ^ e * 2 ^ (F.B - 1 + F.M : ℤ) := zpow_add₀ two_ne_zero _ _
      _ ≤ inSteps F a := mul_le_mul_of_nonneg_right hlo hscale.le

/-- Within a binade, and up to the next one's first value, the values are `2^n` steps apart. -/
theorem steps_binade {F : FormatSpec} {n t : Nat} (hlo : n = 0 ∨ 2 ^ F.M ≤ t) (hhi : t ≤ 2 ^ (F.M + 1)) :
    steps F (n * 2 ^ F.M + t) = t * 2 ^ n := by
  have hM : 0 < 2 ^ F.M := Nat.two_pow_pos _
  rw [pow_succ] at hhi
  rcases lt_or_ge t (2 ^ F.M) with hsub | hnormal
  · obtain rfl : n = 0 := by omega
    rw [zero_mul, zero_add, pow_zero, mul_one, steps_subnormal hsub]
  · obtain ⟨m, rfl⟩ := Nat.exists_eq_add_of_le hnormal
    rcases (show m ≤ 2 ^ F.M by omega).lt_or_eq with hm | rfl
    · rw [← add_assoc, ← add_one_mul, steps_normal (Nat.add_one_pos n) hm, Nat.add_sub_cancel]
    · have hnext : n * 2 ^ F.M + (2 ^ F.M + 2 ^ F.M) = (n + 2) * 2 ^ F.M + 0 := by ring
      rw [hnext, steps_normal (by omega) hM, add_zero, ← mul_two, mul_assoc, ← pow_succ']
      rfl

/-- Inside the binade, `t` is rounded to by what lies up to the midpoint of `t` and `t + 1`. -/
theorem roundedFieldWord_le_iff_of_binade (F : FormatSpec) {a : ℚ} (ha : 0 < a) {t : Nat}
    (hlo : binade F a = 0 ∨ 2 ^ F.M ≤ t) (hhi : t < 2 ^ (F.M + 1)) :
    roundedFieldWord F a ≤ binade F a * 2 ^ F.M + t ↔
      2 * inSteps F a < steps F (binade F a * 2 ^ F.M + t) + steps F (binade F a * 2 ^ F.M + t + 1) := by
  have hn : (0 : ℚ) < 2 ^ binade F a := by positivity
  rw [add_assoc, steps_binade hlo hhi.le, steps_binade (hlo.imp_right Nat.le_succ_of_le) hhi, roundedFieldWord,
    Nat.add_le_add_iff_left, Exact.rhaz_le_iff (div_nonneg (inSteps_nonneg F ha) hn.le), div_lt_iff₀ hn]
  push_cast
  constructor <;> intro h <;> linarith

/-- A magnitude is below the end of its binade, and rounds to at most the field word there. -/
theorem below_binade_end (F : FormatSpec) {a : ℚ} (ha : 0 < a) {u : Nat} (hu : binade F a * 2 ^ F.M + 2 ^ (F.M + 1) ≤ u) :
    roundedFieldWord F a ≤ u ∧ inSteps F a < steps F u := by
  obtain ⟨hlt, -⟩ := inSteps_binade F ha
  have hn : (0 : ℚ) < 2 ^ binade F a := by positivity
  have hM : 2 ^ F.M ≤ 2 ^ (F.M + 1) := Nat.pow_le_pow_right two_pos F.M.le_succ
  constructor
  · refine (Nat.add_le_add_left ?_ _).trans hu
    rw [Exact.rhaz_le_iff (div_nonneg (inSteps_nonneg F ha) hn.le)]
    rw [← div_lt_iff₀ hn] at hlt
    push_cast
    linarith
  · have hsteps := (steps_strictMono F).monotone hu
    rw [steps_binade (.inr hM) le_rfl] at hsteps
    exact hlt.trans_le (by exact_mod_cast hsteps)

/-- A magnitude of a binade above the lowest is at least at the start of it, and rounds to at least the field word there. -/
theorem above_binade_start (F : FormatSpec) {a : ℚ} (ha : 0 < a) (h0 : binade F a ≠ 0) {u : Nat}
    (hu : u ≤ binade F a * 2 ^ F.M + 2 ^ F.M) : u ≤ roundedFieldWord F a ∧ steps F u ≤ inSteps F a := by
  have hle := (inSteps_binade F ha).2.resolve_left h0
  have hM : 2 ^ F.M ≤ 2 ^ (F.M + 1) := Nat.pow_le_pow_right two_pos F.M.le_succ
  constructor
  · refine hu.trans (Nat.add_le_add_left (Nat.le_floor ?_) _)
    rw [← le_div_iff₀ (by positivity)] at hle
    push_cast
    linarith
  · have hsteps := (steps_strictMono F).monotone hu
    rw [steps_binade (.inr le_rfl) hM] at hsteps
    exact le_trans (by exact_mod_cast hsteps) hle

/-- A magnitude rounds to at most the field word `u` exactly when it is below the midpoint of the values of `u` and `u + 1`. -/
theorem roundedFieldWord_le_iff (F : FormatSpec) {a : ℚ} (ha : 0 < a) (u : Nat) :
    roundedFieldWord F a ≤ u ↔ 2 * inSteps F a < steps F u + steps F (u + 1) := by
  have hnext : (steps F u : ℚ) < steps F (u + 1) := by exact_mod_cast steps_lt_steps_succ F u
  by_cases hbelow : binade F a ≠ 0 ∧ u + 1 ≤ binade F a * 2 ^ F.M + 2 ^ F.M
  · obtain ⟨hm, hy⟩ := above_binade_start F ha hbelow.1 hbelow.2
    exact iff_of_false (by omega) (by linarith)
  rcases lt_or_ge u (binade F a * 2 ^ F.M + 2 ^ (F.M + 1)) with hin | hpast
  · have hstart : binade F a * 2 ^ F.M ≤ u := by
      by_cases h0 : binade F a = 0
      · simp [h0]
      · omega
    obtain ⟨t, rfl⟩ := Nat.exists_eq_add_of_le hstart
    exact roundedFieldWord_le_iff_of_binade F ha (by omega) (by omega)
  · obtain ⟨hm, hy⟩ := below_binade_end F ha hpast
    exact iff_of_true hm (by linarith)

/-! The two branches of R133 without their comparison. -/

/-- Below the least normal value (R128). -/
theorem roundedFieldWord_of_subnormal {F : FormatSpec} {a : ℚ} (h : Int.log 2 a + F.B ≤ 0) :
    roundedFieldWord F a = Exact.rhaz (inSteps F a) := by
  have hn : binade F a = 0 := Int.toNat_of_nonpos (by omega)
  simp [roundedFieldWord, hn]

/-- From the least normal value up (R125): the binade's number is one less than the exponent field, and the leading bit of the
mantissa makes up for it. -/
theorem roundedFieldWord_of_normal {F : FormatSpec} {a : ℚ} (ha : 0 < a) (h : 0 < Int.log 2 a + F.B) :
    roundedFieldWord F a =
      (Int.log 2 a + F.B).toNat * 2 ^ F.M + Exact.rhaz ((a / 2 ^ Int.log 2 a - 1) * 2 ^ F.M) := by
  have hbe : (Int.log 2 a + F.B).toNat = binade F a + 1 := by unfold binade; omega
  have hscale : inSteps F a / 2 ^ binade F a = (a / 2 ^ Int.log 2 a - 1) * 2 ^ F.M + (2 ^ F.M : ℕ) := by
    have hexp : (F.B - 1 + F.M : ℤ) = F.M + binade F a - Int.log 2 a := by unfold binade; omega
    rw [inSteps, hexp, zpow_sub₀ two_ne_zero, zpow_add₀ two_ne_zero, zpow_natCast, zpow_natCast]
    push_cast
    field_simp
    ring
  have hfraction : 0 ≤ a / 2 ^ Int.log 2 a - 1 := sub_nonneg.2 ((one_le_div (two_zpow_pos _)).2 (log_bounds ha).1)
  rw [roundedFieldWord, hscale, Exact.rhaz_add_natCast (by positivity), hbe, add_one_mul]
  omega

end Sys2Proof.Machine
end

section
/-! PROOFS. The encoder's branches (R125, R127, R128, R129). -/
namespace Sys2Proof.Machine

section Branches

variable {F : FormatSpec} (s : Bool) {a : Magnitude} (ha : 0 < a.k)
include ha

/-- The subnormal branch (R128), with its mantissa integer in steps. -/
theorem enc_of_subnormal (h : Int.log 2 a.toRat + F.B ≤ 0) :
    enc F (.fin s a) = finish F s 0 (Exact.rhaz (inSteps F a.toRat)) ∧ Exact.rhaz (inSteps F a.toRat) ≤ 2 ^ F.M := by
  have hround : rhaz (a.scale (F.B - 1 + F.M)) = Exact.rhaz (inSteps F a.toRat) := by rw [rhaz_eq_exact, toRat_scale, inSteps]
  rw [← flog2_eq_log ha] at h
  rw [← hround]
  exact ⟨if_pos h, subnormal_rhaz_le ha h⟩

/-- The overflow branch (R129). -/
theorem enc_of_overflow (hF : F.valid = true) (h : ones F.E ≤ Int.log 2 a.toRat + F.B) :
    enc F (.fin s a) = pack F s (ones F.E) 0 := by
  have hpos := ones_pos hF
  rw [← flog2_eq_log ha] at h
  exact (if_neg (by omega)).trans (if_pos h)

/-- The normal branch (R125). -/
theorem enc_of_normal (h0 : 0 < Int.log 2 a.toRat + F.B) (h1 : Int.log 2 a.toRat + F.B < ones F.E) :
    enc F (.fin s a) = finish F s (Int.log 2 a.toRat + F.B).toNat
        (Exact.rhaz ((a.toRat / 2 ^ Int.log 2 a.toRat - 1) * 2 ^ F.M)) ∧
      Exact.rhaz ((a.toRat / 2 ^ Int.log 2 a.toRat - 1) * 2 ^ F.M) ≤ 2 ^ F.M := by
  have hround : rhaz ((fraction a).scale F.M) = Exact.rhaz ((a.toRat / 2 ^ Int.log 2 a.toRat - 1) * 2 ^ F.M) := by
    rw [rhaz_eq_exact, toRat_scale, toRat_fraction ha, flog2_eq_log ha, zpow_natCast]
  rw [← hround]
  rw [← flog2_eq_log ha] at h0 h1 ⊢
  exact ⟨(if_neg (by omega)).trans (if_neg (by omega)), normal_rhaz_le F ha⟩

end Branches

/-- `finish` with no carry and no saturation. -/
theorem finish_of_lt {F : FormatSpec} (s : Bool) {e q : Nat} (he : e < ones F.E) (hq : q < 2 ^ F.M) :
    finish F s e q = pack F s e q := by
  rw [finish_eq, if_neg hq.ne, if_neg he.not_ge]

/-- `finish` with a carry (R127). -/
theorem finish_carry (F : FormatSpec) (s : Bool) (e : Nat) :
    finish F s e (2 ^ F.M) = if ones F.E ≤ e + 1 then pack F s (ones F.E) 0 else pack F s (e + 1) 0 := by
  rw [finish_eq, if_pos rfl]

/-- A power of two in the exponent range has mantissa 0. -/
theorem val_pack_power {F : FormatSpec} (hF : F.valid = true) (s : Bool) {e : Nat} (he0 : 0 < e) (he : e < ones F.E) :
    Exact.val F (pack F s e 0) = .fin s (2 ^ (e - F.B)) := by
  have hpow : (2 : ℚ) ^ F.M * 2 ^ (e - F.B - F.M) = 2 ^ (e - F.B) := by
    rw [← zpow_natCast, ← zpow_add₀ two_ne_zero]
    congr 1
    ring
  rw [(ValueClass.normal s he0 he (Nat.two_pow_pos _)).val_eq hF, Nat.cast_zero, add_zero, hpow]

/-- Rounding carries from the last half step below a whole number on. -/
theorem Exact.rhaz_eq_iff_of_le {y : ℚ} (hy : 0 ≤ y) {n : Nat} (hn : 0 < n) (hle : Exact.rhaz y ≤ n) :
    Exact.rhaz y = n ↔ n - 1 / 2 ≤ y := by
  have hbelow := Exact.rhaz_le_iff hy (n := n - 1)
  rw [Nat.cast_sub hn] at hbelow
  rw [← not_iff_not, not_le]
  calc ¬ Exact.rhaz y = n ↔ Exact.rhaz y ≤ n - 1 := by omega
    _ ↔ y < n - 1 / 2 := by
      rw [hbelow]
      push_cast
      constructor <;> intro h <;> linarith

theorem ones_cast (n : Nat) : (ones n : ℤ) = 2 ^ n - 1 := by
  simp [ones]

/-- Settles O25: in the normal branch without a carry, the exponent is below all ones, and `finish` packs the two fields. -/
theorem normalBranchRounds : Obligations.NormalBranchRounds := by
  intro F s a e q hF ha hlo hhi hbe0 hbe hq
  obtain rfl := log_eq_of_bounds hlo hhi
  have htop := ones_cast F.E
  obtain ⟨henc, hle⟩ := enc_of_normal (F := F) s ha (by omega) (by omega)
  rw [Exact.rhaz, ← hq] at henc hle
  exact ⟨hle, fun hlt => henc.trans (finish_of_lt s (by omega) hlt)⟩

/-- The last half step of a binade, for a mantissa of `M` bits and for the whole significand (R127). -/
theorem last_half_step_le_iff {M : Nat} {x : ℚ} : 2 ^ M - 1 / 2 ≤ (x - 1) * 2 ^ M ↔ 2 - 1 / 2 ^ (M + 1) ≤ x := by
  have hpow : (0 : ℚ) < 2 ^ M := by positivity
  have hhalf : (2 ^ M - 1 / 2 : ℚ) / 2 ^ M = 1 - 1 / 2 ^ (M + 1) := by
    rw [pow_succ]
    field_simp
  rw [← div_le_iff₀ hpow, hhalf]
  constructor <;> intro h <;> linarith

/-- Settles O26: the carry happens from the last half step of the binade on, and gives the next power of two, or infinity. -/
theorem normalCarryPropagates : Obligations.NormalCarryPropagates := by
  intro F s a e q hF ha hlo hhi hbe0 hbe hq
  obtain rfl := log_eq_of_bounds hlo hhi
  have htop := ones_cast F.E
  obtain ⟨henc, hle⟩ := enc_of_normal (F := F) s ha (by omega) (by omega)
  rw [← Exact.rhaz] at hq
  rw [← hq] at henc hle
  constructor
  · have hfraction : 0 ≤ a.toRat / 2 ^ Int.log 2 a.toRat - 1 := sub_nonneg.2 ((one_le_div (two_zpow_pos _)).2 hlo)
    rw [hq] at hle ⊢
    rw [Exact.rhaz_eq_iff_of_le (by positivity) (Nat.two_pow_pos _) hle, Nat.cast_pow, Nat.cast_ofNat, last_half_step_le_iff]
  · rintro rfl
    rw [finish_carry] at henc
    split_ifs with hsat
    · rwa [if_pos (by omega)] at henc
    · have he : (Int.log 2 a.toRat + F.B + 1).toNat = (Int.log 2 a.toRat + F.B).toNat + 1 := by omega
      have hvalue : (((Int.log 2 a.toRat + F.B).toNat + 1 : ℕ) : ℤ) - F.B = Int.log 2 a.toRat + 1 := by omega
      rw [if_neg (by omega)] at henc
      rw [he]
      refine ⟨henc, ?_⟩
      rw [val_pack_power hF s (Nat.succ_pos _) (by omega), hvalue]

/-- The magnitude `2^j` in steps. -/
theorem inSteps_two_zpow (F : FormatSpec) (j : ℤ) : inSteps F (2 ^ j) = 2 ^ (j + (F.B - 1 + F.M)) :=
  (zpow_add₀ two_ne_zero _ _).symm

theorem inSteps_sub (F : FormatSpec) (a b : ℚ) : inSteps F (a - b) = inSteps F a - inSteps F b := sub_mul _ _ _

theorem inSteps_lt_iff {F : FormatSpec} {a b : ℚ} : inSteps F a < inSteps F b ↔ a < b :=
  mul_lt_mul_iff_left₀ (two_zpow_pos _)

theorem inSteps_le_iff {F : FormatSpec} {a b : ℚ} : inSteps F a ≤ inSteps F b ↔ a ≤ b :=
  mul_le_mul_iff_left₀ (two_zpow_pos _)

/-- Half the least positive value is half a step. -/
theorem inSteps_half_least (F : FormatSpec) : inSteps F (2 ^ (-F.B - (F.M : ℤ))) = 1 / 2 := by
  have hexp : -F.B - F.M + (F.B - 1 + F.M) = (-1 : ℤ) := by ring
  rw [inSteps_two_zpow, hexp, zpow_neg_one, one_div]

/-- The least normal value is `2^M` steps. -/
theorem inSteps_least_normal (F : FormatSpec) : inSteps F (2 ^ (1 - F.B)) = 2 ^ F.M := by
  have hexp : 1 - F.B + (F.B - 1 + F.M) = (F.M : ℤ) := by ring
  rw [inSteps_two_zpow, hexp, zpow_natCast]

/-- The bound of underflow to zero, in steps (R128). -/
theorem lt_half_least_iff (F : FormatSpec) {a : ℚ} : a < 2 ^ (-F.B - (F.M : ℤ)) ↔ inSteps F a < 1 / 2 := by
  rw [← inSteps_half_least, inSteps_lt_iff]

/-- The bound of the carry to the least normal value, in steps (R128). -/
theorem least_normal_sub_half_least_le_iff (F : FormatSpec) {a : ℚ} :
    2 ^ (1 - F.B) - 2 ^ (-F.B - (F.M : ℤ)) ≤ a ↔ 2 ^ F.M - 1 / 2 ≤ inSteps F a := by
  rw [← inSteps_half_least, ← inSteps_least_normal, ← inSteps_sub, inSteps_le_iff]

/-- Settles O27: the mantissa integer is the magnitude in steps, rounded, so each outcome is a comparison of the magnitude with a
number of steps and a half. -/
theorem subnormalBranchOutcomes : Obligations.SubnormalBranchOutcomes := by
  intro F s a e q hF ha hlo hhi hbe hq
  obtain rfl := log_eq_of_bounds hlo hhi
  have hpos := ones_pos hF
  have hy := inSteps_nonneg F (toRat_pos ha)
  obtain ⟨henc, hle⟩ := enc_of_subnormal (F := F) s ha hbe
  rw [← inSteps, ← Exact.rhaz] at hq
  rw [← hq] at henc hle
  have hpack (hlt : q < 2 ^ F.M) : enc F (.fin s a) = pack F s 0 q := henc.trans (finish_of_lt s hpos hlt)
  refine ⟨hle, fun _ h => hpack (le_ones_iff.1 h), ?_, ?_, ?_, ?_, ?_⟩
  · rw [← Nat.le_zero, hq, Exact.rhaz_le_iff hy, lt_half_least_iff, Nat.cast_zero, zero_add]
  · rintro rfl
    exact hpack (Nat.two_pow_pos _)
  · intro htie
    have hone : q = 1 := by
      rw [hq, htie, inSteps_half_least, Exact.rhaz]
      norm_num
    subst hone
    exact hpack (Nat.one_lt_two_pow (Nat.pos_iff_ne_zero.1 (valid_iff.1 hF).1))
  · rw [hq] at hle ⊢
    rw [Exact.rhaz_eq_iff_of_le hy (Nat.two_pow_pos _) hle, least_normal_sub_half_least_le_iff, Nat.cast_pow, Nat.cast_ofNat]
  · rintro rfl
    rw [finish_carry] at henc
    split_ifs with hsat
    · rwa [if_pos hsat] at henc
    · rw [if_neg hsat] at henc
      exact ⟨henc, val_pack_power hF s one_pos (by omega)⟩

end Sys2Proof.Machine
end

section
/-! PROOFS. The one addition that the encoder's branches come to (R133), and what it gives: monotone rounding to a nearest value
(R135), and infinity from one bound on (R129). -/
namespace Sys2Proof.Machine

/-- The field word of infinity, above those of the finite values (R96). -/
def infinityFieldWord (F : FormatSpec) : Nat := ones F.E * 2 ^ F.M

theorem infinityFieldWord_lt (F : FormatSpec) : infinityFieldWord F < 2 ^ (F.E + F.M) := by
  rw [pow_add]
  exact Nat.mul_lt_mul_of_pos_right (le_ones_iff.1 le_rfl) (Nat.two_pow_pos _)

/-- A packed word is its sign bit and its field word (R65). -/
theorem pack_eq_fieldWord (F : FormatSpec) (s : Bool) (e m : Nat) : pack F s e m = pack F s 0 (e * 2 ^ F.M + m) := by
  unfold pack
  omega

theorem pack_fieldWord_mod (F : FormatSpec) (s : Bool) {u : Nat} (hu : u ≤ infinityFieldWord F) :
    pack F s 0 u % 2 ^ (F.E + F.M) = u := by
  rw [pack, zero_mul, add_zero, Nat.mul_add_mod_self_right, Nat.mod_eq_of_lt (hu.trans_lt (infinityFieldWord_lt F))]

/-- An exponent field below all ones and a rounded mantissa, carry included, add up to at most infinity's field word. -/
theorem fieldWord_le_infinity {F : FormatSpec} {e q : Nat} (he : e < ones F.E) (hq : q ≤ 2 ^ F.M) :
    e * 2 ^ F.M + q ≤ infinityFieldWord F := by
  calc e * 2 ^ F.M + q ≤ (e + 1) * 2 ^ F.M := by rw [add_one_mul]; omega
    _ ≤ infinityFieldWord F := Nat.mul_le_mul_right _ he

/-- A carry out of the mantissa is the addition's own carry into the exponent field (R133). -/
theorem finish_eq_fieldWord {F : FormatSpec} (s : Bool) {e q : Nat} (he : e < ones F.E) (hq : q ≤ 2 ^ F.M) :
    finish F s e q = pack F s 0 (e * 2 ^ F.M + q) := by
  rcases hq.lt_or_eq with hlt | rfl
  · rw [finish_of_lt s he hlt, pack_eq_fieldWord]
  · have hcarry : pack F s (e + 1) 0 = pack F s 0 (e * 2 ^ F.M + 2 ^ F.M) := by rw [pack_eq_fieldWord, add_one_mul, add_zero]
    rw [finish_carry, ← hcarry]
    split_ifs with hsat
    · rw [le_antisymm hsat he]
    · rfl

/-- Every finite value encodes to the field word its magnitude rounds to, or to infinity's if that is less (R133). -/
theorem enc_fin {F : FormatSpec} (hF : F.valid = true) (s : Bool) {a : Magnitude} (ha : 0 < a.k) :
    enc F (.fin s a) = pack F s 0 (min (roundedFieldWord F a.toRat) (infinityFieldWord F)) := by
  rcases le_or_gt (Int.log 2 a.toRat + F.B) 0 with hsub | hpos
  · obtain ⟨henc, hle⟩ := enc_of_subnormal s ha hsub
    have hbound := fieldWord_le_infinity (ones_pos hF) hle
    rw [zero_mul, zero_add] at hbound
    rw [henc, finish_eq_fieldWord s (ones_pos hF) hle, roundedFieldWord_of_subnormal hsub, min_eq_left hbound, zero_mul, zero_add]
  · rw [roundedFieldWord_of_normal (toRat_pos ha) hpos]
    rcases lt_or_ge (Int.log 2 a.toRat + F.B) (ones F.E) with hnormal | hover
    · obtain ⟨henc, hle⟩ := enc_of_normal s ha hpos hnormal
      have he : (Int.log 2 a.toRat + F.B).toNat < ones F.E := by omega
      rw [henc, finish_eq_fieldWord s he hle, min_eq_left (fieldWord_le_infinity he hle)]
    · have hbound : infinityFieldWord F ≤ (Int.log 2 a.toRat + F.B).toNat * 2 ^ F.M := Nat.mul_le_mul_right _ (by omega)
      rw [enc_of_overflow s ha hF hover, pack_eq_fieldWord, min_eq_right (hbound.trans (Nat.le_add_right _ _))]
      rfl

/-- R133's form is the same field word, its comparison left out where the exponent alone decides it. -/
theorem oneAddition_eq {F : FormatSpec} (s : Bool) {a : ℚ} (ha : 0 < a) :
    Exact.oneAddition F s a = pack F s 0 (min (roundedFieldWord F a) (infinityFieldWord F)) := by
  have hmin (m : Nat) : (if m < ones F.E * 2 ^ F.M then m else ones F.E * 2 ^ F.M) = min m (infinityFieldWord F) := (min_def_lt _ _).symm
  have hpack (u : Nat) : s.toNat * 2 ^ (F.E + F.M) + u = pack F s 0 u := by rw [pack, zero_mul, add_zero]
  simp only [Exact.oneAddition, hmin, hpack]
  congr 1
  split_ifs with hsub hover
  · rw [roundedFieldWord_of_subnormal hsub]
    rfl
  · have hbound : infinityFieldWord F ≤ (Int.log 2 a + F.B).toNat * 2 ^ F.M := Nat.mul_le_mul_right _ (by omega)
    rw [roundedFieldWord_of_normal ha (by omega), min_eq_right (hbound.trans (Nat.le_add_right _ _))]
    rfl
  · rw [roundedFieldWord_of_normal ha (by omega)]

/-- Settles O30: both are the rounded field word, cut at infinity's. -/
theorem encodeIsOneAddition : Obligations.EncodeIsOneAddition := by
  intro F s a hF ha
  rw [enc_fin hF s ha, oneAddition_eq s (toRat_pos ha)]

/-- The encoder's field word (R133). -/
theorem enc_fin_mod {F : FormatSpec} (hF : F.valid = true) (s : Bool) {a : Magnitude} (ha : 0 < a.k) :
    enc F (.fin s a) % 2 ^ (F.E + F.M) = min (roundedFieldWord F a.toRat) (infinityFieldWord F) := by
  rw [enc_fin hF s ha, pack_fieldWord_mod F s (min_le_right _ _)]

/-- A larger magnitude is not below a midpoint that the smaller one is not below. -/
theorem roundedFieldWord_mono (F : FormatSpec) {a b : ℚ} (ha : 0 < a) (hab : a ≤ b) :
    roundedFieldWord F a ≤ roundedFieldWord F b := by
  have hb := (roundedFieldWord_le_iff F (ha.trans_le hab) _).1 le_rfl
  have hle : inSteps F a ≤ inSteps F b := inSteps_le_iff.2 hab
  rw [roundedFieldWord_le_iff F ha]
  linarith

theorem pos_of_toRat_pos {a : Magnitude} (h : 0 < a.toRat) : 0 < a.k := by
  exact_mod_cast pos_of_mul_pos_left h (two_zpow_pos a.j).le

/-- Settles O33: the rounded field word is monotone, and so is cutting it at infinity's. -/
theorem encodeIsMonotone : Obligations.EncodeIsMonotone := by
  intro F s a₁ a₂ hF ha₁ hle
  have ha₂ : 0 < a₂.k := pos_of_toRat_pos ((toRat_pos ha₁).trans_le hle)
  rw [enc_fin_mod hF s ha₁, enc_fin_mod hF s ha₂]
  exact min_le_min_right _ (roundedFieldWord_mono F (toRat_pos ha₁) hle)

/-- Of two numbers, the one on a point's side of their midpoint is the nearer. -/
theorem abs_sub_lt_of_lt_midpoint {y p q : ℚ} (hpq : p < q) (hy : 2 * y < p + q) : |y - p| < |y - q| := by
  rw [← sq_lt_sq]
  nlinarith

theorem abs_sub_le_of_midpoint_le {y p q : ℚ} (hqp : q < p) (hy : q + p ≤ 2 * y) : |y - p| ≤ |y - q| := by
  rw [← sq_le_sq]
  nlinarith

/-- The rounded field word counts a number of steps nearest to the magnitude, and of two that are as near it is the greater. -/
theorem roundedFieldWord_nearest (F : FormatSpec) {a : ℚ} (ha : 0 < a) (u : Nat) :
    |inSteps F a - steps F (roundedFieldWord F a)| ≤ |inSteps F a - steps F u| ∧
      (|inSteps F a - steps F (roundedFieldWord F a)| = |inSteps F a - steps F u| → u ≤ roundedFieldWord F a) := by
  have hround := roundedFieldWord_le_iff F ha
  generalize roundedFieldWord F a = m at *
  have hmono {i j : Nat} (h : i ≤ j) : (steps F i : ℚ) ≤ steps F j := by exact_mod_cast (steps_strictMono F).monotone h
  have hstrict {i j : Nat} (h : i < j) : (steps F i : ℚ) < steps F j := by exact_mod_cast steps_strictMono F h
  rcases lt_trichotomy u m with hbelow | rfl | habove
  · obtain ⟨n, rfl⟩ := Nat.exists_eq_add_of_lt hbelow
    have hmid := not_lt.1 ((hround (u + n)).not.1 (Nat.not_succ_le_self _))
    have hprev := hmono (Nat.le_add_right u n)
    exact ⟨abs_sub_le_of_midpoint_le (hstrict hbelow) (by linarith), fun _ => hbelow.le⟩
  · exact ⟨le_rfl, fun _ => le_rfl⟩
  · have hmid := (hround m).1 le_rfl
    have hnext := hmono (Nat.succ_le_of_lt habove)
    have hnear := abs_sub_lt_of_lt_midpoint (hstrict habove) (hmid.trans_le (by linarith))
    exact ⟨hnear.le, fun heq => absurd heq hnear.ne⟩

/-- Distances of magnitudes are those of their numbers of steps. -/
theorem abs_sub_eq_inSteps (F : FormatSpec) (a : ℚ) (u : Nat) :
    |a - steps F u * 2 ^ (1 - F.B - F.M)| = |inSteps F a - steps F u| * 2 ^ (1 - F.B - F.M) := by
  have hunit : (0 : ℚ) < 2 ^ (1 - F.B - F.M) := two_zpow_pos _
  have hexp : F.B - 1 + F.M + (1 - F.B - F.M) = (0 : ℤ) := by ring
  have ha : inSteps F a * 2 ^ (1 - F.B - F.M) = a := by
    rw [inSteps, mul_assoc, ← zpow_add₀ two_ne_zero, hexp, zpow_zero, mul_one]
  conv_lhs => rw [← ha, ← sub_mul, abs_mul, abs_of_pos hunit]

/-- Settles O34: a finite result has the rounded field word, whose number of steps is nearest. -/
theorem encodeRoundsToNearest : Obligations.EncodeRoundsToNearest := by
  intro F s a v hF ha hv w v' hw hv'
  have hunit : (0 : ℚ) < 2 ^ (1 - F.B - F.M) := two_zpow_pos _
  obtain ⟨hfinite, rfl⟩ := magnitude_eq_steps hF (enc_lt hF (x := .fin s a) ha) hv
  obtain ⟨-, rfl⟩ := magnitude_eq_steps hF hw hv'
  have hword : enc F (.fin s a) % 2 ^ (F.E + F.M) = roundedFieldWord F a.toRat := by
    rw [enc_fin_mod hF s ha] at hfinite ⊢
    exact min_eq_left (min_lt_iff.1 hfinite |>.resolve_right (lt_irrefl _)).le
  obtain ⟨hle, htie⟩ := roundedFieldWord_nearest F (toRat_pos ha) (w % 2 ^ (F.E + F.M))
  rw [hword, abs_sub_eq_inSteps, abs_sub_eq_inSteps]
  refine ⟨mul_le_mul_of_nonneg_right hle hunit.le, fun heq => mul_le_mul_of_nonneg_right ?_ hunit.le⟩
  exact_mod_cast (steps_strictMono F).monotone (htie (mul_right_cancel₀ hunit.ne' heq))

/-- A word's sign bit weighs `2^(T-1)`. -/
theorem pack_true {F : FormatSpec} (hF : F.valid = true) (e m : Nat) : pack F true e m = pack F false e m + 2 ^ (F.T - 1) := by
  rw [total_sub_one hF, pack, pack, Bool.toNat_true, Bool.toNat_false]
  ring

theorem nanMantissa_pos_lt {F : FormatSpec} (hF : F.valid = true) : 0 < 2 ^ (F.M - 1) ∧ 2 ^ (F.M - 1) < 2 ^ F.M :=
  ⟨Nat.two_pow_pos _, Nat.pow_lt_pow_right one_lt_two (Nat.sub_one_lt_of_lt (valid_iff.1 hF).1)⟩

/-- Settles O32: the sign enters a word only as its top bit, and the NaN word has sign 0. -/
theorem encodeSignSymmetry : Obligations.EncodeSignSymmetry := by
  refine fun F hF => ⟨fun a ha => ?_, pack_true hF 0 0, pack_true hF _ 0, ?_⟩
  · rw [enc_fin hF true ha, enc_fin hF false ha, pack_true hF]
  · have hnan := fieldWord_pack hF false (le_ones_iff.1 le_rfl) (nanMantissa_pos_lt hF).2
    rw [total_sub_one hF]
    change pack F false (ones F.E) (2 ^ (F.M - 1)) < _
    rw [pack, Bool.toNat_false, zero_mul, zero_add, ← hnan]
    exact Nat.mod_lt _ (Nat.two_pow_pos _)

/-- A field word up to infinity's, under a sign, is a zero, a finite value or the infinity of that sign (R96). -/
theorem val_pack_fieldWord {F : FormatSpec} (hF : F.valid = true) (s : Bool) {u : Nat} (hu : u ≤ infinityFieldWord F) :
    Exact.val F (pack F s 0 u) = .inf s ∨ Exact.val F (pack F s 0 u) = .zero s ∨ ∃ v, Exact.val F (pack F s 0 u) = .fin s v := by
  rcases hu.eq_or_lt with rfl | hlt
  · have hpack := pack_eq_fieldWord F s (ones F.E) 0
    exact .inl (hpack ▸ (ValueClass.infinity s).val_eq hF)
  · right
    have hM := Nat.two_pow_pos F.M
    have he : u / 2 ^ F.M < ones F.E := (Nat.div_lt_iff_lt_mul hM).2 hlt
    have hm : u % 2 ^ F.M < 2 ^ F.M := Nat.mod_lt _ hM
    have hpack := pack_eq_fieldWord F s (u / 2 ^ F.M) (u % 2 ^ F.M)
    rw [Nat.div_add_mod'] at hpack
    rw [← hpack]
    generalize u / 2 ^ F.M = e at he
    generalize u % 2 ^ F.M = m at hm
    rcases e.eq_zero_or_pos with rfl | he0
    · rcases m.eq_zero_or_pos with rfl | hm0
      · exact .inl ((ValueClass.zero s).val_eq hF)
      · exact .inr ⟨_, (ValueClass.subnormal s hm0 hm).val_eq hF⟩
    · exact .inr ⟨_, (ValueClass.normal s he0 he hm).val_eq hF⟩

/-- Settles O35: the NaN, infinity and zero words are of their class, and a finite value's field word is at most infinity's. -/
theorem encodeKeepsClassAndSign : Obligations.EncodeKeepsClassAndSign := by
  intro F hF
  obtain ⟨hpos, hlt⟩ := nanMantissa_pos_lt hF
  refine ⟨(ValueClass.nan false hpos hlt).val_eq hF, fun b => ⟨(ValueClass.infinity b).val_eq hF, (ValueClass.zero b).val_eq hF,
    fun a ha => ?_⟩⟩
  rw [enc_fin hF b ha]
  exact val_pack_fieldWord hF b (min_le_right _ _)

/-- A finite value encodes to infinity exactly when its rounded field word reaches infinity's. -/
theorem enc_fin_eq_infinity_iff {F : FormatSpec} (hF : F.valid = true) (s : Bool) {a : Magnitude} (ha : 0 < a.k) :
    enc F (.fin s a) = pack F s (ones F.E) 0 ↔ infinityFieldWord F ≤ roundedFieldWord F a.toRat := by
  rw [enc_fin hF s ha, pack_eq_fieldWord F s (ones F.E), pack, pack, Nat.add_left_cancel_iff]
  exact min_eq_right_iff

/-- The bound of overflow is the midpoint of the last finite value and of the one that infinity's field word would count. -/
theorem steps_infinity_midpoint {F : FormatSpec} (hE : 1 < ones F.E) :
    (steps F (infinityFieldWord F - 1) + steps F (infinityFieldWord F) : ℚ) =
      2 * inSteps F ((2 - 1 / 2 ^ (F.M + 1)) * 2 ^ ((ones F.E : ℤ) - 1 - F.B)) := by
  obtain ⟨n, hn⟩ := Nat.exists_eq_add_of_le' hE
  have hM := Nat.two_pow_pos F.M
  have hinf : infinityFieldWord F = n * 2 ^ F.M + 2 ^ (F.M + 1) := by rw [infinityFieldWord, hn]; ring
  have hlast : infinityFieldWord F - 1 = n * 2 ^ F.M + (2 ^ (F.M + 1) - 1) := by omega
  have htwo : 2 ^ (F.M + 1) = 2 ^ F.M + 2 ^ F.M := by rw [pow_succ, mul_two]
  rw [hlast, hinf, steps_binade (.inr (by omega)) (Nat.sub_le _ _), steps_binade (.inr (by omega)) le_rfl, inSteps, mul_assoc,
    ← zpow_add₀ two_ne_zero, hn]
  have hexp : ((n + 2 : ℕ) : ℤ) - 1 - F.B + (F.B - 1 + F.M) = (n + F.M : ℕ) := by push_cast; ring
  rw [hexp, zpow_natCast]
  push_cast [Nat.cast_sub Nat.one_le_two_pow]
  field_simp
  ring

/-- Settles O28: the first two clauses are the overflow branch; the third is a field word rounded to infinity's or above. -/
theorem overflowSaturatesToInfinity : Obligations.OverflowSaturatesToInfinity := by
  intro F s a hF ha
  have hlog : (ones F.E : ℤ) ≤ flog2 a + F.B ↔ (ones F.E : ℤ) - F.B ≤ Int.log 2 a.toRat := by
    rw [flog2_eq_log ha, sub_le_iff_le_add]
  refine ⟨?_, fun h => ?_, fun hE => ?_⟩
  · rw [hlog, ← Int.zpow_le_iff_le_log one_lt_two (toRat_pos ha)]
    norm_cast
  · rw [flog2_eq_log ha] at h
    exact enc_of_overflow s ha hF h
  · have hpos : 0 < infinityFieldWord F := Nat.mul_pos (ones_pos hF) (Nat.two_pow_pos _)
    have hround := roundedFieldWord_le_iff F (toRat_pos ha) (infinityFieldWord F - 1)
    rw [Nat.sub_add_cancel hpos, steps_infinity_midpoint (one_lt_ones hE), mul_lt_mul_iff_right₀ two_pos, inSteps_lt_iff,
      Nat.le_sub_one_iff_lt hpos] at hround
    rw [enc_fin_eq_infinity_iff hF s ha, ← not_lt, hround, not_lt]

end Sys2Proof.Machine
end

section
/-! PROOFS. DECODE on the ports, and the operand check it shares with BREAKDOWN (R150, R152, R155, R172). -/
namespace Sys2Proof.Machine

theorem malformed_iff {F : FormatSpec} {r : Request} :
    Exact.malformed F r = true ↔ r.aLen.toNat ≠ F.T ∨ 2 ^ F.T ≤ r.aWord.toNat := by
  simp [Exact.malformed]

/-- DECODE and BREAKDOWN answer status 2 exactly on a malformed operand: on any other their status is 0 (R150, R172). -/
theorem responseOf_eq_malformed_iff {o : Operation} (ho : o ≠ .encode) (F : FormatSpec) (r : Request) :
    Exact.responseOf o F r = Exact.errorResponse 2 ↔ Exact.malformed F r = true := by
  have hword (w len : Nat) : Exact.wordResponse w len ≠ Exact.errorResponse 2 :=
    fun h => absurd (congrArg Response.status h) (by decide : (0 : BitVec 2) ≠ 2)
  have hfields (s e elen m mlen : Nat) : Exact.fieldsResponse s e elen m mlen ≠ Exact.errorResponse 2 :=
    fun h => absurd (congrArg Response.status h) (by decide : (0 : BitVec 2) ≠ 2)
  cases o with
  | encode => exact absurd rfl ho
  | decode => simp [Exact.responseOf, Exact.decodeResponse, hword]
  | breakdown => simp [Exact.responseOf, Exact.breakdownResponse, hfields]

/-- A command other than ENCODE raises MalformedInputError exactly on an operand that is not well formed for its format. -/
theorem exec_raises_malformed_iff {i : Instr} (hop : i.operation ≠ .encode) (s : State) :
    exec i s = .next { s with response := some (Exact.errorResponse 2) } ↔
      s.request.aLen.toNat ≠ (specOf i.format).T ∨ 2 ^ (specOf i.format).T ≤ s.request.aWord.toNat := by
  rw [exec_eq_responseOf, ← malformed_iff, ← responseOf_eq_malformed_iff hop]
  simp

/-- Settles O12: none of the twelve commands is an ENCODE. -/
theorem malformedBitStringRaises : Obligations.MalformedBitStringRaises := by
  intro s i hi
  have hop : i.operation ≠ .encode := by
    revert i
    decide
  exact exec_raises_malformed_iff hop s

/-- A DECODE command on a well-formed operand (R155). -/
theorem exec_decode_of_wellFormed {i : Instr} (hop : i.operation = .decode) {s : State}
    (hlen : s.request.aLen.toNat = (specOf i.format).T) (hw : s.request.aWord.toNat < 2 ^ (specOf i.format).T) :
    exec i s = .next { s with response := some (Exact.wordResponse
      (Exact.enc fp64 (Exact.val (specOf i.format) s.request.aWord.toNat)) 64) } := by
  rw [exec_eq_responseOf, hop, ← decodeResponse_of_wellFormed (wellFormedFor_iff.2 ⟨hlen, hw⟩)]
  rfl

/-- Settles O37: each of the six commands by `exec_decode_of_wellFormed`, and the errors by `exec_raises_malformed_iff`. -/
theorem decodeAnswersExactWord : Obligations.DecodeAnswersExactWord := by
  intro s
  have hop : ∀ i ∈ [Instr.decodeFp32, .decodeFp64, .decodeFp16, .decodeBf16, .decodeFp8e4m3, .decodeNvfp4e2m1],
      i.operation ≠ .encode := by decide
  exact ⟨exec_decode_of_wellFormed (i := .decodeFp32) rfl,
    fun hlen => exec_decode_of_wellFormed (i := .decodeFp64) rfl hlen s.request.aWord.isLt,
    exec_decode_of_wellFormed (i := .decodeFp16) rfl, exec_decode_of_wellFormed (i := .decodeBf16) rfl,
    exec_decode_of_wellFormed (i := .decodeFp8e4m3) rfl, exec_decode_of_wellFormed (i := .decodeNvfp4e2m1) rfl,
    fun i hi => (exec_raises_malformed_iff (hop i hi) s).2⟩

/-- The DECODE command of a format on a well-formed operand (R155). -/
theorem exec_decode {s : State} {f : Format} (hlen : s.request.aLen.toNat = (specOf f).T)
    (hw : s.request.aWord.toNat < 2 ^ (specOf f).T) :
    exec (Instr.ofParts .decode f) s = .next { s with response := some (Exact.wordResponse
      (Exact.enc fp64 (Exact.val (specOf f) s.request.aWord.toNat)) 64) } := by
  have h := exec_decode_of_wellFormed (operation_ofParts .decode f) (s := s)
  rw [format_ofParts] at h
  exact h hlen hw

/-- Settles O39: the encoder's word of NaN, in binary64. -/
theorem decodeNaNIsCanonical : Obligations.DecodeNaNIsCanonical := by
  intro s f hlen hw hnan
  rw [exec_decode hlen hw, hnan]
  rfl

end Sys2Proof.Machine
end

section
/-! PROOFS. DECODE and ENCODE of the same format, one after the other (R157). -/
namespace Sys2Proof.Machine

/-- The ENCODE command of a format (R130). -/
theorem exec_encode (s : State) (f : Format) :
    exec (Instr.ofParts .encode f) s = .next { s with response := some (Exact.wordResponse
      (Exact.enc (specOf f) (Exact.val fp64 s.request.aWord.toNat)) (specOf f).T) } := by
  rw [exec_eq_responseOf, operation_ofParts, format_ofParts]
  rfl

/-- The rules' encoder gives every word's value a word of `T` bits (R120). -/
theorem Exact.enc_val_lt {F : FormatSpec} (hF : F.valid = true) (G : FormatSpec) (w : Nat) :
    Exact.enc F (Exact.val G w) < 2 ^ F.T := by
  rw [← enc_val_eq_exact hF]
  exact enc_lt hF (val_positive G w)

/-- Encoding a word's value in its own format gives the word back, or the NaN word of R121 (R134). -/
theorem Exact.enc_val_eq_ite {F : FormatSpec} (hF : F.valid = true) {w : Nat} (hw : w < 2 ^ F.T) :
    Exact.enc F (Exact.val F w) = if Exact.val F w = .nan then pack F false (ones F.E) (2 ^ (F.M - 1)) else w := by
  split_ifs with hnan
  · rw [hnan]
    rfl
  · exact Exact.enc_val hF hw hnan

theorem Exact.val_enc_nan {F : FormatSpec} (hF : F.valid = true) : Exact.val F (Exact.enc F .nan) = .nan :=
  (encodeKeepsClassAndSign F hF).1

/-- The decoder keeps the value of every word, NaN included (R153). -/
theorem val_decoded (f : Format) {w : Nat} (hw : w < 2 ^ (specOf f).T) :
    Exact.val fp64 (Exact.enc fp64 (Exact.val (specOf f) w)) = Exact.val (specOf f) w := by
  by_cases hnan : Exact.val (specOf f) w = .nan
  · rw [hnan]
    exact Exact.val_enc_nan (F := fp64) (by decide)
  · have hexact := (decodeIsExact (specOf f) (specOf_mem f) w hw hnan).1
    rwa [enc_val_eq_exact (F := fp64) (by decide)] at hexact

/-- The state in which the host presents a response's word and its tag as the next operand (R71). -/
def State.forward (s : State) (r : Response) : State := { s with request := { s.request with aWord := r.rWord, aLen := r.rLen } }

theorem forward_word_aWord (s : State) {T w : Nat} (hT : T ≤ 64) (hw : w < 2 ^ T) (len : Nat) :
    (s.forward (Exact.wordResponse w len)).request.aWord.toNat = w := toNat_ofNat_of_lt_two_pow hT hw

theorem forward_word_aLen (s : State) (w : Nat) (f : Format) :
    (s.forward (Exact.wordResponse w (specOf f).T)).request.aLen.toNat = (specOf f).T := by
  cases f <;> rfl

/-- ENCODE of a forwarded word of 64 bits (R71, R130). -/
theorem exec_encode_forward (s : State) (f : Format) {d : Nat} (hd : d < 2 ^ 64) :
    exec (Instr.ofParts .encode f) (s.forward (Exact.wordResponse d 64)) = .next
      { s.forward (Exact.wordResponse d 64) with response := some (Exact.wordResponse
        (Exact.enc (specOf f) (Exact.val fp64 d)) (specOf f).T) } := by
  rw [exec_encode, forward_word_aWord s le_rfl hd]

/-- DECODE of a forwarded word of the format (R71, R155). -/
theorem exec_decode_forward (s : State) (f : Format) {w : Nat} (hw : w < 2 ^ (specOf f).T) :
    exec (Instr.ofParts .decode f) (s.forward (Exact.wordResponse w (specOf f).T)) = .next
      { s.forward (Exact.wordResponse w (specOf f).T) with response := some (Exact.wordResponse
        (Exact.enc fp64 (Exact.val (specOf f) w)) 64) } := by
  have hword := forward_word_aWord s (specOf_widths f).1 hw (specOf f).T
  rw [exec_decode (forward_word_aLen s w f) (hword.trans_lt hw), hword]

/-- Settles O42: the forwarded word has the operand's value, which the encoder inverts. -/
theorem decodeThenEncodeIsIdentity : Obligations.DecodeThenEncodeIsIdentity := by
  intro s f hlen hw
  have hencode := exec_encode_forward s f (Exact.enc_val_lt (F := fp64) (by decide) (specOf f) s.request.aWord.toNat)
  rw [val_decoded f hw, Exact.enc_val_eq_ite (specOf_valid f) hw] at hencode
  exact ⟨_, rfl, exec_decode hlen hw, hencode⟩

/-- Settles O43: the forwarded word is the one that has the operand's value, or a NaN word, and binary64's encoder gives the operand
back from its value. -/
theorem encodeThenDecodeReturnsFormatValues : Obligations.EncodeThenDecodeReturnsFormatValues := by
  intro s f
  have hF := specOf_valid f
  refine ⟨_, rfl, exec_encode s f, ?_⟩
  refine ⟨_, rfl, rfl, exec_decode_forward s f (Exact.enc_val_lt hF fp64 _), fun w hw hval hnan => ?_, fun hnan => ?_⟩
  · have hback : Exact.enc fp64 (Exact.val (specOf f) w) = s.request.aWord.toNat := by
      rw [← hval] at hnan ⊢
      exact Exact.enc_val (F := fp64) (by decide) s.request.aWord.isLt hnan
    rw [hval, Exact.enc_val hF hw hnan, hback]
    exact (BitVec.ofNat_toNat 64 _).trans (BitVec.setWidth_eq _)
  · rw [hnan, Exact.val_enc_nan hF]
    rfl

end Sys2Proof.Machine
end

section
/-! PROOFS. The decoder's word, built from the fields (R154). -/
namespace Sys2Proof.Machine

/-- The word of a magnitude whose leading bit has weight `2^n` before scaling: the bits below the leading one, moved up to fill the
mantissa, under the exponent field `n + j + B`. -/
theorem valueClass_leading_bit (G : FormatSpec) (s : Bool) {k n : Nat} {j : ℤ} (hlo : 2 ^ n ≤ k) (hhi : k < 2 ^ (n + 1))
    (hn : n ≤ G.M) (hmin : 0 < n + j + G.B) (hmax : n + j + G.B < ones G.E) :
    ValueClass G (pack G s (n + j + G.B).toNat ((k - 2 ^ n) * 2 ^ (G.M - n))) (.fin s (k * 2 ^ j)) := by
  obtain ⟨m, rfl⟩ := Nat.exists_eq_add_of_le hlo
  obtain ⟨p, hp⟩ := Nat.exists_eq_add_of_le hn
  obtain ⟨e, he⟩ := Int.eq_ofNat_of_zero_le hmin.le
  have hm : m * 2 ^ p < 2 ^ G.M := by
    rw [hp, pow_add]
    exact Nat.mul_lt_mul_of_pos_right (by rw [pow_succ] at hhi; omega) (Nat.two_pow_pos _)
  have hval : ((2 ^ n + m : ℕ) : ℚ) * 2 ^ j = (2 ^ G.M + (m * 2 ^ p : ℕ)) * 2 ^ (e - G.B - G.M) := by
    obtain rfl : j = p + (e - G.B - G.M) := by omega
    rw [zpow_add₀ two_ne_zero, zpow_natCast, hp, pow_add]
    push_cast
    ring
  rw [hval, he, Int.toNat_natCast, Nat.add_sub_cancel_left, hp, Nat.add_sub_cancel_left, ← hp]
  exact .normal s (by omega) (by omega) hm

/-- R154 on the fields of a word, its result words packed as R65 does. -/
theorem decodeBits_pack {F : FormatSpec} (hF : F.valid = true) (s : Bool) {e m : Nat} (he : e < 2 ^ F.E) (hm : m < 2 ^ F.M) :
    Exact.decodeBits F (pack F s e m) =
      if e = ones F.E then
        if m = 0 then pack fp64 s (ones fp64.E) 0 else pack fp64 false (ones fp64.E) (2 ^ (fp64.M - 1))
      else if e = 0 then
        if m = 0 then pack fp64 s 0 0
        else pack fp64 s (((m.log2 + 1 : ℕ) : ℤ) - F.B - F.M + 1023).toNat ((m - 2 ^ m.log2) * 2 ^ (53 - (m.log2 + 1)))
      else pack fp64 s ((e : ℤ) - F.B + 1023).toNat (m * 2 ^ (52 - F.M)) := by
  rw [Exact.decodeBits, split_pack hF s he hm]
  rfl

/-- In a format all of whose finite non-zero values are normal in binary64, R154's word is the encoder's: its two finite cases are
the place of the leading bit and the bits below it. -/
theorem ValueClass.decodeBits_eq {F : FormatSpec} (hF : F.valid = true) (hM : F.M ≤ 52) (hleast : F.B + F.M ≤ 1023)
    (hlargest : ones F.E - F.B ≤ 1024) {w : Nat} {x : XReal ℚ} (h : ValueClass F w x) :
    Exact.decodeBits F w = Exact.enc fp64 x := by
  have hones : ones F.E < 2 ^ F.E := le_ones_iff.1 le_rfl
  have hones0 : 0 ≠ ones F.E := (ones_pos hF).ne
  have hpow : 0 < 2 ^ F.M := Nat.two_pow_pos _
  have hM64 : fp64.M = 52 := rfl
  have hB64 : fp64.B = 1023 := rfl
  have hE64 : ones fp64.E = 2047 := rfl
  cases h with
  | infinity s => rw [decodeBits_pack hF s hones hpow, if_pos rfl, if_pos rfl]; rfl
  | nan s hm0 hm => rw [decodeBits_pack hF s hones hm, if_pos rfl, if_neg hm0.ne']; rfl
  | zero s => rw [decodeBits_pack hF s (Nat.two_pow_pos _) hpow, if_neg hones0, if_pos rfl, if_pos rfl]; rfl
  | @subnormal s m hm0 hm =>
    have hlog : Nat.log2 m < F.M := (Nat.log2_lt hm0.ne').2 hm
    have hclass := valueClass_leading_bit fp64 s (j := 1 - F.B - F.M) (Nat.log2_self_le hm0.ne') Nat.lt_log2_self
      (by omega) (by omega) (by omega)
    rw [decodeBits_pack hF s (Nat.two_pow_pos _) hm, if_neg hones0, if_pos rfl, if_neg hm0.ne', hclass.enc_eq nofun]
    congr 2
    · omega
    · exact congrArg (2 ^ ·) (Nat.add_sub_add_right 52 1 _)
  | @normal s e m he0 he hm =>
    have hclass := valueClass_leading_bit fp64 s (j := e - F.B - F.M) (Nat.le_add_right (2 ^ F.M) m) (by rw [pow_succ]; omega)
      hM (by omega) (by omega)
    push_cast at hclass
    rw [decodeBits_pack hF s (he.trans hones) hm, if_neg he.ne, if_neg he0.ne', hclass.enc_eq nofun, Nat.add_sub_cancel_left]
    congr 2
    omega

theorem catalog_normal_in_binary64 : ∀ F ∈ catalog, F ≠ fp64 → F.M ≤ 52 ∧ F.B + F.M ≤ 1023 ∧ ones F.E - F.B ≤ 1024 := by
  decide

/-- Settles O40: each class of word of a format whose finite values are normal in binary64. -/
theorem decodeBitByBit : Obligations.DecodeBitByBit := by
  intro F hmem hne w hw
  obtain ⟨f, rfl⟩ := mem_catalog hmem
  obtain ⟨hM, hleast, hlargest⟩ := catalog_normal_in_binary64 _ hmem hne
  rw [enc_val_eq_exact (F := fp64) (by decide)]
  exact ((valueClass_val (specOf_valid f) hw).decodeBits_eq (specOf_valid f) hM hleast hlargest).symm

end Sys2Proof.Machine
end

section
/-! PROOFS. BREAKDOWN on the ports: the three fields of the operand, which are the whole word (R170, R172, R174). -/
namespace Sys2Proof.Machine

/-- The response with the fields of a word of the format and the lengths of two of them (R170). -/
def Exact.breakdownFields (F : FormatSpec) (w : Nat) : Response :=
  Exact.fieldsResponse (w / 2 ^ (F.T - 1) % 2) (w / 2 ^ F.M % 2 ^ F.E) F.E (w % 2 ^ F.M) F.M

theorem breakdownResponse_of_wellFormed {F : FormatSpec} {r : Request} (h : Exact.malformed F r = false) :
    Exact.breakdownResponse F r = Exact.breakdownFields F r.aWord.toNat := by
  rw [Exact.breakdownResponse, h]
  rfl

/-- A BREAKDOWN response of status 0 is that of a well-formed operand (R172). -/
theorem breakdownResponse_of_status_zero {F : FormatSpec} {r : Request} (h : (Exact.breakdownResponse F r).status = 0) :
    Exact.breakdownResponse F r = Exact.breakdownFields F r.aWord.toNat := by
  cases hbad : Exact.malformed F r with
  | false => exact breakdownResponse_of_wellFormed hbad
  | true =>
    rw [Exact.breakdownResponse, hbad] at h
    exact absurd h (by decide : (2 : BitVec 2) ≠ 0)

/-- The sign output is the sign that `val` reads (R64). -/
theorem breakdownFields_fSign (F : FormatSpec) (w : Nat) :
    (Exact.breakdownFields F w).fSign = BitVec.ofBool (split F w).sign := (ofBool_testBit w (F.T - 1)).symm

/-- The exponent field of a format of the catalog fits its port. -/
theorem breakdownFields_fExp (f : Format) (w : Nat) :
    (Exact.breakdownFields (specOf f) w).fExp.toNat = (split (specOf f) w).expf :=
  toNat_ofNat_of_lt_two_pow (specOf_widths f).2.1 (Nat.mod_lt _ (Nat.two_pow_pos _))

/-- The mantissa field of a format of the catalog fits its port. -/
theorem breakdownFields_fMan (f : Format) (w : Nat) :
    (Exact.breakdownFields (specOf f) w).fMan.toNat = (split (specOf f) w).manf :=
  toNat_ofNat_of_lt_two_pow (specOf_widths f).2.2 (Nat.mod_lt _ (Nat.two_pow_pos _))

theorem breakdownFields_fExplen (f : Format) (w : Nat) : (Exact.breakdownFields (specOf f) w).fExplen.toNat = (specOf f).E := by
  cases f <;> rfl

theorem breakdownFields_fManlen (f : Format) (w : Nat) : (Exact.breakdownFields (specOf f) w).fManlen.toNat = (specOf f).M := by
  cases f <;> rfl

/-- The three outputs pack to the word they were taken from (R65, R170). -/
theorem pack_breakdownFields (f : Format) {w : Nat} (hw : w < 2 ^ (specOf f).T) :
    pack (specOf f) ((Exact.breakdownFields (specOf f) w).fSign == 1) (Exact.breakdownFields (specOf f) w).fExp.toNat
      (Exact.breakdownFields (specOf f) w).fMan.toNat = w := by
  have hsign (b : Bool) : (BitVec.ofBool b == 1) = b := by cases b <;> rfl
  rw [breakdownFields_fSign, hsign, breakdownFields_fExp, breakdownFields_fMan, pack_split (specOf_valid f) hw]

/-- The BREAKDOWN command of a format on a well-formed operand (R170). -/
theorem exec_breakdown {s : State} {f : Format} (hlen : s.request.aLen.toNat = (specOf f).T)
    (hw : s.request.aWord.toNat < 2 ^ (specOf f).T) :
    exec (Instr.ofParts .breakdown f) s =
      .next { s with response := some (Exact.breakdownFields (specOf f) s.request.aWord.toNat) } := by
  have hgood : Exact.malformed (specOf f) s.request = false := by
    rw [malformed_eq_not_wellFormedFor, wellFormedFor_iff.2 ⟨hlen, hw⟩, Bool.not_true]
  rw [exec_eq_responseOf, operation_ofParts, format_ofParts, ← breakdownResponse_of_wellFormed hgood]
  rfl

/-- The BREAKDOWN command of a format that answers with status 0 answers the fields of its operand (R170, R172). -/
theorem response_of_exec_breakdown {s : State} {f : Format} {r : Response}
    (h : exec (Instr.ofParts .breakdown f) s = .next { s with response := some r }) (hstatus : r.status = 0) :
    r = Exact.breakdownFields (specOf f) s.request.aWord.toNat := by
  rw [exec_eq_responseOf, operation_ofParts, format_ofParts] at h
  cases h
  exact breakdownResponse_of_status_zero hstatus

/-- Settles O44: each of the six commands by `exec_breakdown`, and the errors by `exec_raises_malformed_iff`. -/
theorem breakdownAnswersFields : Obligations.BreakdownAnswersFields := by
  intro s
  have hop : ∀ i ∈ [Instr.breakdownFp32, .breakdownFp64, .breakdownFp16, .breakdownBf16, .breakdownFp8e4m3, .breakdownNvfp4e2m1],
      i.operation ≠ .encode := by decide
  exact ⟨exec_breakdown (f := .fp32),
    fun hlen => exec_breakdown (f := .fp64) hlen s.request.aWord.isLt,
    exec_breakdown (f := .fp16), exec_breakdown (f := .bf16),
    exec_breakdown (f := .fp8e4m3), exec_breakdown (f := .nvfp4e2m1),
    fun i hi => (exec_raises_malformed_iff (hop i hi) s).2⟩

/-- A sign bit has the same number as a port and as the flag that `pack` takes (R64). -/
theorem toNat_beq_one (b : BitVec 1) : (b == 1).toNat = b.toNat := by
  revert b
  decide

/-- Settles O45: the outputs pack to the operand, and their lengths are read off the response. -/
theorem breakdownFieldsAreWholeWord : Obligations.BreakdownFieldsAreWholeWord := by
  intro s f hlen hw
  refine ⟨_, exec_breakdown hlen hw, rfl, ?_, breakdownFields_fExplen f _, breakdownFields_fManlen f _⟩
  rw [← toNat_beq_one]
  exact (pack_breakdownFields f hw).symm

/-- BREAKDOWN of a forwarded word of the format (R71, R170). -/
theorem exec_breakdown_forward (s : State) (f : Format) {w : Nat} (hw : w < 2 ^ (specOf f).T) :
    exec (Instr.ofParts .breakdown f) (s.forward (Exact.wordResponse w (specOf f).T)) = .next
      { s.forward (Exact.wordResponse w (specOf f).T) with response := some (Exact.breakdownFields (specOf f) w) } := by
  have hword := forward_word_aWord s (specOf_widths f).1 hw (specOf f).T
  rw [exec_breakdown (forward_word_aLen s w f) (hword.trans_lt hw), hword]

/-- Settles O46: a response of status 0 holds the split's fields, and the encoder's word has the format's width, so its forwarded
result is well formed and its fields pack to it. -/
theorem breakdownAgreesWithEncodeAndDecode : Obligations.BreakdownAgreesWithEncodeAndDecode := by
  refine ⟨fun s f r hexec hstatus => ?_, fun s f => ?_⟩
  · rw [response_of_exec_breakdown hexec hstatus]
    exact ⟨breakdownFields_fSign _ _, breakdownFields_fExp f _, breakdownFields_fMan f _⟩
  · have hw := Exact.enc_val_lt (specOf_valid f) fp64 s.request.aWord.toNat
    refine ⟨_, exec_encode s f, _, exec_breakdown_forward s f hw, rfl, ?_⟩
    rw [pack_breakdownFields f hw]
    exact forward_word_aWord s (specOf_widths f).1 hw (specOf f).T

end Sys2Proof.Machine
end

section
/-! PROOFS. The outcome of a transaction: which status it reports (R186 to R191), and which outputs it leaves 0 (R193). -/
namespace Sys2Proof

theorem Operation.code_eq_zero_iff (o : Operation) : o.code = 0 ↔ o = .encode := by cases o <;> decide

theorem Operation.code_eq_two_iff (o : Operation) : o.code = 2 ↔ o = .breakdown := by cases o <;> decide

end Sys2Proof

namespace Sys2Proof.Machine

/-- The three forms of an operation's response: MalformedInputError exactly for an operation with the operand check whose operand
fails it, else a word for ENCODE and DECODE, and fields for BREAKDOWN. -/
theorem responseOf_cases (o : Operation) (F : FormatSpec) (r : Request) :
    ((o ≠ .encode ∧ Exact.malformed F r = true) ∧ Exact.responseOf o F r = Exact.errorResponse 2) ∨
    (¬ (o ≠ .encode ∧ Exact.malformed F r = true) ∧
      ((o ≠ .breakdown ∧ ∃ w len, Exact.responseOf o F r = Exact.wordResponse w len) ∨
      (o = .breakdown ∧ ∃ s e elen m mlen, Exact.responseOf o F r = Exact.fieldsResponse s e elen m mlen))) := by
  by_cases hbad : o ≠ .encode ∧ Exact.malformed F r = true
  · exact .inl ⟨hbad, (responseOf_eq_malformed_iff hbad.1 F r).2 hbad.2⟩
  · have hgood (ho : o ≠ .encode) : ¬ Exact.malformed F r = true := fun h => hbad ⟨ho, h⟩
    refine .inr ⟨hbad, ?_⟩
    cases o with
    | encode => exact .inl ⟨by decide, _, _, rfl⟩
    | decode => exact .inl ⟨by decide, _, _, if_neg (hgood (by decide))⟩
    | breakdown => exact .inr ⟨rfl, _, _, _, _, _, if_neg (hgood (by decide))⟩

/-- An operation reports MalformedInputError or OK (R188). -/
theorem responseOf_status (o : Operation) (F : FormatSpec) (r : Request) :
    (Exact.responseOf o F r).status = if o ≠ .encode ∧ Exact.malformed F r = true then 2 else 0 := by
  rcases responseOf_cases o F r with ⟨hbad, h⟩ | ⟨hgood, ⟨-, _, _, h⟩ | ⟨-, _, _, _, _, _, h⟩⟩
  · rw [h, if_pos hbad]; rfl
  · rw [h, if_neg hgood]; rfl
  · rw [h, if_neg hgood]; rfl

/-- A request with neither code reserved selects an operation and a format (R61, R62). -/
theorem exists_codes {r : Request} (hop : r.op ≠ 3) (hfmt : r.fmt.toNat < 6) :
    ∃ (o : Operation) (f : Format), r.op = o.code ∧ r.fmt = f.code := by
  obtain ⟨o, ho, -⟩ := (operationOf_cases r.op).resolve_left fun h => hop h.1
  obtain ⟨f, hf, -⟩ := (formatOf_cases r.fmt).resolve_left fun h => hfmt.not_ge h.1
  exact ⟨o, f, ho, hf⟩

/-- Settles O6: the dispatch judges `op`, then `fmt`, and the operation of the two codes then judges its operand. -/
theorem statusFollowsErrorOrder : Obligations.StatusFollowsErrorOrder := by
  intro s
  refine ⟨_, transactionIsTransact s, fun hop => ?_, fun hop hfmt => ?_, fun F hop hfmt hF => ?_⟩
  · rw [transact_of_reservedOperation hop]; rfl
  · rw [transact_of_reservedFormat hop hfmt]; rfl
  · obtain ⟨o, f, ho, hf⟩ := exists_codes hop hfmt
    obtain rfl : specOf f = F := by rwa [hf, fmtSpec_code, Option.some.injEq] at hF
    simp only [transact_of_codes ho hf, responseOf_status, malformed_iff, ho, ne_eq, Operation.code_eq_zero_iff]

/-- The three forms of a transaction's response, of which only BREAKDOWN gives fields and it gives no word (R26, R193). -/
theorem transact_forms (r : Request) :
    (∃ n, Exact.transact r = Exact.errorResponse n) ∨
    (r.op ≠ 2 ∧ ∃ w len, Exact.transact r = Exact.wordResponse w len) ∨
    (r.op = 2 ∧ ∃ s e elen m mlen, Exact.transact r = Exact.fieldsResponse s e elen m mlen) := by
  rcases answer_cases r with ⟨hop, -⟩ | ⟨hop, hfmt, -⟩ | ⟨o, f, hop, hfmt, -⟩
  · exact .inl ⟨3, transact_of_reservedOperation hop⟩
  · exact .inl ⟨1, transact_of_reservedFormat hop hfmt⟩
  · rw [transact_of_codes hop hfmt, hop, Ne, Operation.code_eq_two_iff]
    rcases responseOf_cases o (specOf f) r with ⟨-, h⟩ | ⟨-, h⟩
    · exact .inl ⟨2, h⟩
    · exact .inr h

/-- Settles O11: an error drives nothing but its status, and a word or fields have status 0 and nothing of the other form. -/
theorem undrivenOutputsAreZero : Obligations.UndrivenOutputsAreZero := by
  intro s t r ht hr
  rw [transactionIsTransact] at ht
  cases ht
  cases hr
  rcases transact_forms s.request with ⟨n, h⟩ | ⟨hop, w, len, h⟩ | ⟨hop, sign, e, elen, m, mlen, h⟩
  · simp [h, Exact.errorResponse]
  · rw [h]
    exact ⟨fun hne => absurd rfl hne, fun _ _ => ⟨rfl, rfl, rfl, rfl, rfl⟩, fun _ hop2 => absurd hop2 hop⟩
  · rw [h, hop]
    exact ⟨fun hne => absurd rfl hne, fun _ hop01 => absurd hop01 (by decide), fun _ _ => ⟨rfl, rfl⟩⟩

end Sys2Proof.Machine
end

section
/-! PROOFS. No transaction and no step stops or hangs (R214). -/
namespace Sys2Proof.Machine

/-- Settles O9: a transaction responds with `transact` of its request, and a step is that response and the host's turn after it. -/
theorem everyTransactionCompletes : Obligations.EveryTransactionCompletes :=
  fun s => ⟨⟨Exact.transact s.request, transactionIsTransact s⟩, ⟨_, step_eq s⟩⟩

end Sys2Proof.Machine
end

section
/-! PROOFS. A step on a command word that decodes to a command: the command and the host's turn after it (R60, R66, R67). -/
namespace Sys2Proof.Machine

/-- A command word that decodes to a command runs that command. -/
theorem transaction_of_decode {s : State} {i : Instr} (hd : decode s.command = .command i) : transaction s = exec i s := by
  rw [transaction, hd]

/-- After the command that the ports select, the host takes its turn. -/
theorem step_of_decode {s t : State} {i : Instr} (hd : decode s.command = .command i) (ht : exec i s = .next t) :
    step s = .next t.hostTurn := by
  rw [step, transaction_of_decode hd, ht]
  rfl

/-- The ports carry the command word that the host drives on them. -/
@[simp] theorem State.withFetchWord_command (s : State) (nbits w : Nat) :
    (s.withFetchWord nbits w).command = commandOfTableWord nbits w := append_fields _

/-- A table word is read as a command exactly when its command word decodes to it. -/
theorem decodeTableWord_eq_some_iff {nbits w : Nat} {i : Instr} :
    decodeTableWord nbits w = some i ↔ decode (commandOfTableWord nbits w) = .command i := by
  rw [decodeTableWord]
  cases decode (commandOfTableWord nbits w) <;> simp

/-- Settles O4: the statement writes out the host's turn of `step_of_decode`. -/
theorem stepRunsDecodedCommand : Obligations.StepRunsDecodedCommand := fun _ _ _ _ hd ht => step_of_decode hd ht

/-- Settles O5: the word driven on the ports is the command word that `decodeTableWord` decodes. -/
theorem fetchedTableWordRuns : Obligations.FetchedTableWordRuns := by
  intro s t nbits w i hw ht
  refine step_of_decode ?_ ht
  rw [State.withFetchWord_command]
  exact decodeTableWord_eq_some_iff.1 hw

end Sys2Proof.Machine
end

section
/-! PROOFS. The state after reset (R30, R210). -/
namespace Sys2Proof.Machine

/-- Settles O48: neither the output ports nor the host's list holds a response. -/
theorem resetStateMeetsInvariant : Obligations.ResetStateMeetsInvariant :=
  ⟨nofun, nofun⟩

/-- Settles O49: the request presented is answered by `transact` of it in both states. -/
theorem resetIsNotObservable : Obligations.ResetIsNotObservable :=
  ⟨rfl, rfl, rfl, fun _ r => ⟨Exact.transact r, transactionIsTransact _, transactionIsTransact _⟩⟩

end Sys2Proof.Machine
end

section
/-! PROOFS. A run on the host's list of requests (R46, R215, log 4): it answers them one after another. -/
namespace Sys2Proof.Machine

/-- The state in which the host has presented one more request, its last, and taken the response `transact` of it. -/
def State.answering (s : State) (r : Request) : State where
  request := r
  response := some (Exact.transact r)
  pending := []
  delivered := s.delivered ++ [Exact.transact r]

/-- With nothing lined up behind it, a step answers the loaded request, which stays on the ports (log 4). -/
theorem step_load_nil (s : State) (r : Request) : step (s.load r []) = .next (s.answering r) :=
  step_of_pending_nil rfl

/-- With requests lined up, a step answers the loaded one and leaves the others loaded. -/
theorem step_load_cons (s : State) (r q : Request) (rest : List Request) :
    step (s.load r (q :: rest)) = .next ((s.answering r).load q rest) := by
  rw [step_eq, answer_onPorts]
  rfl

/-- A run of as many steps as there are requests loaded answers them in order. -/
theorem run_load (s : State) (r : Request) (rest : List Request) :
    Sys2Proof.core.run (rest.length + 1) (s.load r rest) = .next ((r :: rest).foldl State.answering s) := by
  induction rest generalizing s r with
  | nil => exact run_succ_of_step (step_load_nil s r) 0
  | cons q rest ih => exact (run_succ_of_step (step_load_cons s r q rest) _).trans (ih (s.answering r) q)

/-- Answering requests appends `transact` of each to the delivered list. -/
theorem foldl_answering_delivered (s : State) (rs : List Request) :
    (rs.foldl State.answering s).delivered = s.delivered ++ rs.map Exact.transact := by
  induction rs generalizing s with
  | nil => simp
  | cons r rs ih => simp [ih, State.answering]

/-- After answering a list of requests, the ports are those of its last transaction. -/
theorem foldl_answering_eq_answering_getLast (s : State) {rs : List Request} (hrs : rs ≠ []) :
    rs.foldl State.answering s = (rs.dropLast.foldl State.answering s).answering (rs.getLast hrs) := by
  conv_lhs => rw [← List.dropLast_append_getLast hrs, List.foldl_append]
  rfl

/-- After answering a list of requests, the response on the ports is the last one delivered. -/
theorem foldl_answering_response (s : State) {rs : List Request} (hrs : rs ≠ []) :
    (rs.foldl State.answering s).response = (rs.foldl State.answering s).delivered.getLast? := by
  rw [foldl_answering_eq_answering_getLast s hrs]
  exact List.getLast?_concat.symm

/-- Settles O51: the run answers the requests in order (`run_load`), and ends with the last transaction. -/
theorem runAnswersEachRequest : Obligations.RunAnswersEachRequest := by
  intro s r rest
  refine ⟨_, run_load s r rest, foldl_answering_delivered s (r :: rest), ?_⟩
  have hlast := foldl_answering_eq_answering_getLast s (List.cons_ne_nil r rest)
  exact ⟨congrArg State.pending hlast, congrArg State.request hlast, foldl_answering_response s (List.cons_ne_nil r rest)⟩

end Sys2Proof.Machine
end

section
/-! PROOFS. A program of forwarded transactions (R70, R71, R215): each line presents a request, and each request is answered. -/
namespace Sys2Proof.Machine

/-- A name forwards the word and the length of the response it is bound to (R71). -/
theorem lineRequest_result {answers : List Response} {op : BitVec 2} {fmt : BitVec 3} {n : Nat} {a : Response}
    (ha : answers[n]? = some a) :
    lineRequest answers ⟨op, fmt, .result n⟩ = some { op := op, fmt := fmt, aWord := a.rWord, aLen := a.rLen } := by
  simp [lineRequest, ha]

/-- A well-formed line presents a request, whatever the responses of the lines before it are: a name on it is bound by one of those
lines, and so to a response. -/
theorem lineRequest_of_wellFormed {before : List Line} {answers : List Response} {l : Line} (hl : l.wellFormed before = true)
    (hlength : answers.length = before.length) : ∃ q, lineRequest answers l = some q := by
  obtain ⟨op, fmt, operand⟩ := l
  cases operand with
  | literal digits w =>
    obtain ⟨len, -, -, h⟩ := literal_request (answers := answers) hl
    exact ⟨_, h⟩
  | tagged len w => exact ⟨_, rfl⟩
  | result n =>
    cases hb : before[n]? with
    | none => simp [Line.wellFormed, hb] at hl
    | some b =>
      obtain ⟨hn, -⟩ := List.getElem?_eq_some_iff.1 hb
      have ha : answers[n]? = some answers[n] := List.getElem?_eq_getElem (by omega)
      exact ⟨_, lineRequest_result ha⟩

/-- Running a program is answering the request of its first line and running the rest. -/
theorem runProgram_cons {s : State} {l : Line} {q : Request} (hq : lineRequest s.delivered l = some q) (ls : List Line) :
    runProgram (l :: ls) s = runProgram ls (s.answering q) := by
  simp only [runProgram, hq, step_load_nil]

/-- One response a line, each `transact` of the request that its line presents given the responses before it. -/
def AnswersLines (ls : List Line) (rs : List Response) : Prop :=
  rs.length = ls.length ∧
    ∀ (n : Nat) (l : Line), ls[n]? = some l → ∃ q, lineRequest (rs.take n) l = some q ∧ rs[n]? = some (Exact.transact q)

theorem answersLines_nil : AnswersLines [] [] := ⟨rfl, nofun⟩

/-- Answering one more line keeps the answers to the lines before it. -/
theorem AnswersLines.concat {ls : List Line} {rs : List Response} (h : AnswersLines ls rs) {l : Line} {q : Request}
    (hq : lineRequest rs l = some q) : AnswersLines (ls ++ [l]) (rs ++ [Exact.transact q]) := by
  obtain ⟨hlength, hanswers⟩ := h
  refine ⟨by simp [hlength], fun n l' hl' => ?_⟩
  rcases lt_or_ge n ls.length with hn | hn
  · rw [List.getElem?_append_left hn] at hl'
    rw [List.take_append_of_le_length (by omega), List.getElem?_append_left (by omega)]
    exact hanswers n l' hl'
  · obtain ⟨hn', -⟩ := List.getElem?_eq_some_iff.1 hl'
    rw [List.length_append, List.length_singleton] at hn'
    obtain rfl : n = rs.length := by omega
    obtain rfl : l = l' := by simpa [hlength] using hl'
    exact ⟨q, by simpa using hq, by simp⟩

/-- From a state in which the lines before have been answered, well-formed lines run to their end and are answered too. -/
theorem runProgram_answers {before : List Line} {ls : List Line} {s : State} (hs : AnswersLines before s.delivered)
    (hls : Line.allWellFormed before ls = true) : ∃ t, runProgram ls s = some t ∧ AnswersLines (before ++ ls) t.delivered := by
  induction ls generalizing before s with
  | nil => exact ⟨s, rfl, by rwa [List.append_nil]⟩
  | cons l ls ih =>
    obtain ⟨hl, hrest⟩ := Bool.and_eq_true_iff.1 hls
    obtain ⟨q, hq⟩ := lineRequest_of_wellFormed hl hs.1
    rw [runProgram_cons hq, List.append_cons]
    exact ih (hs.concat hq) hrest

/-- Settles O52: `runProgram_answers` from reset, where no line has been answered. -/
theorem programRunsToItsEnd : Obligations.ProgramRunsToItsEnd := by
  intro ls hls
  obtain ⟨t, ht, hlength, hanswers⟩ := runProgram_answers (s := State.reset) answersLines_nil hls
  exact ⟨t.delivered, by rw [programResponses, ht]; rfl, hlength, hanswers⟩

end Sys2Proof.Machine
end
